-- ==== Sys2Proof/Word.lean ====
section
/-! DEFINITION. The word types of the machine: bytes, 64-bit words and register numbers (R10, R13, R15, R30). -/

namespace Sys2Proof

/-- A byte of memory (R30). -/
abbrev Byte := BitVec 8

/-- A general purpose register, an element or an address: `XLEN = ELEN = 64` bits (R10, R15). -/
abbrev Word := BitVec 64

/-- The number of a general purpose register, a field `Ra6`, `Rb6`, `Rc6` or `Rt6` (R10). -/
abbrev GReg := BitVec 6

/-- The number of a vector register, a field `Vt6`, `Va6`, `Vb6`, `Vc6` or `Vs6` (R13). -/
abbrev VReg := BitVec 6

/-- The index of an element; `VL_MAX` is at most 64 (R14). -/
abbrev ElemIx := Fin 64

end Sys2Proof
end

