-- ==== Sys2Proof/Config.lean ====
section
/-! DEFINITION. What the spec leaves to the implementation (00_scope.md section 4): the open parameters that are plain
data, and the open functions, which are opaque, so that a claim holds whatever they are. Two more, which read the whole
state, stand at the head of Machine/Ops.lean. -/

namespace Sys2Proof

/-- The floating-point operand types that have a meaning: `T3 = 1` and `T3 = 2` (R59, R82). -/
inductive FloatType where
  | single
  | double
  deriving DecidableEq, Repr

/-- What a 64-bit access at an address that is not a multiple of 8 does (R34, D23). -/
inductive Misaligned where
  | refuse
  | split
  deriving DecidableEq, Repr

/-- What V2BITS leaves in the bits at and above the length (R130, D19). -/
inductive V2BitsUpper where
  | zero
  | preserve
  | any
  deriving DecidableEq, Repr

/-- What a value of VMAC's field `O3` selects (R162, D26). -/
inductive VmacForm where
  | element
  | length
  | reserved
  deriving DecidableEq, Repr

/-- The open parameters of 00_scope.md section 4 whose settings the model tells apart. They are arguments of the model
and no state of the machine (R5): State carries them because the step has no other argument (log 5). -/
structure Params where
  /-- The highest vector register number there is: `NVREG - 1` (R13, D3). -/
  vregTop : Fin 64
  /-- The highest element index there is: `VL_MAX - 1` (R14, D4). -/
  elemTop : Fin 64
  /-- `R0_IS_ZERO` (R11, D5). -/
  r0IsZero : Bool
  /-- `MISALIGNED` (R34, D23). -/
  misaligned : Misaligned
  /-- `V2BITS_UPPER` (R130, D19). -/
  v2bitsUpper : V2BitsUpper
  /-- `VMAC_O`, entry `o` for the value `o` of the field `O3` (R162, D26). -/
  vmacO : Vector VmacForm 8
  deriving DecidableEq, Repr

/-- The parameters at reset: the spec's provisional values where it has one; `VL_MAX = 8` (the test vectors' value),
`R0_IS_ZERO` false and `MISALIGNED = split` are DESIGN CHOICE (log 6). -/
def Params.provisional : Params where
  vregTop := 63
  elemTop := 7
  r0IsZero := false
  misaligned := .split
  v2bitsUpper := .zero
  vmacO := (Vector.replicate 8 .reserved).set 0 .element

/-- `FAdd` (R82, D16). -/
opaque Config.fAdd : FloatType → Word → Word → Word
/-- `FSub` (R82, D16). -/
opaque Config.fSub : FloatType → Word → Word → Word
/-- `FMul` (R82, D16). -/
opaque Config.fMul : FloatType → Word → Word → Word
/-- `FDiv` (R82, D16). -/
opaque Config.fDiv : FloatType → Word → Word → Word
/-- `FCmp`, whose results are the three that R88 names; an unordered pair gives one of them, not said which (U12). -/
opaque Config.fCmp : FloatType → Word → Word → Ordering
/-- `FMac`, of the type, `Sn4` and the three operands (R163, D16). -/
opaque Config.fMac : FloatType → BitVec 4 → Word → Word → Word → Word
/-- `CvtF2I` (R126, D17). -/
opaque Config.cvtF2I : Word → Word
/-- `CvtI2F` (R127, D17). -/
opaque Config.cvtI2F : Word → Word
/-- The quotient where the spec states none: a zero divisor, and `-2^63 / -1` (R92, U10; log 13). A function of the
operands. -/
opaque Config.iDivCorner : Word → Word → Word
/-- The free draws of V2BITS under `V2BITS_UPPER = any`, one for each value of the counter `freeIx` (R130, U16; log 16). -/
opaque Config.freeWord : Nat → Word

end Sys2Proof
end

