-- ==== Sys2Proof/Syntax.lean ====
section
/-! DEFINITION. The instructions: one constructor for each row of spec/opcode_table.json (R1, R57, R58, R64). -/

namespace Sys2Proof

/-- The two predicate fields of every instruction: `Pn4` and `Pc4` (R19, R51). -/
structure Pred where
  pn : BitVec 4
  pc : BitVec 4
  deriving DecidableEq, Repr

/-- An instruction as its row's fields give it; the operands stand in the order of R65: target, sources, then the index or
length register. `t` is `T3`, kept as its three bits (R59), so that no encoding of a row is lost. A name ending in `Len` is the length
form. -/
inductive Instr where
  | vadd (p : Pred) (t : BitVec 3) (vt va vb : VReg) (ra : GReg)
  | vaddLen (p : Pred) (t : BitVec 3) (vt va vb : VReg) (ra : GReg)
  | vand (p : Pred) (vt va vb : VReg) (ra : GReg)
  | vandLen (p : Pred) (vt va vb : VReg) (ra : GReg)
  | vbits2v (p : Pred) (vt : VReg) (rb ra : GReg)
  | vcmp (p : Pred) (t : BitVec 3) (vt va vb : VReg) (ra : GReg)
  | vcmpLen (p : Pred) (t : BitVec 3) (vt va vb : VReg) (ra : GReg)
  | veins (p : Pred) (vt : VReg) (rb ra : GReg)
  | veor (p : Pred) (vt va vb : VReg) (ra : GReg)
  | veorLen (p : Pred) (vt va vb : VReg) (ra : GReg)
  | vdiv (p : Pred) (t : BitVec 3) (vt va vb : VReg) (ra : GReg)
  | vdivLen (p : Pred) (t : BitVec 3) (vt va vb : VReg) (ra : GReg)
  | vex (p : Pred) (rt : GReg) (va : VReg) (ra : GReg)
  | vflt2int (p : Pred) (vt va : VReg) (ra : GReg)
  | vint2flt (p : Pred) (vt va : VReg) (ra : GReg)
  | vld (p : Pred) (seg : BitVec 3) (disp : BitVec 11) (vt : VReg) (rb ra : GReg)
  | vldx (p : Pred) (seg unused : BitVec 3) (sc : BitVec 2) (vt : VReg) (rc rb ra : GReg)
  | vmac (p : Pred) (o : BitVec 3) (sn : BitVec 4) (t : BitVec 3) (vt va vb vc : VReg) (ra : GReg)
  | vmul (p : Pred) (t : BitVec 3) (vt va vb : VReg) (ra : GReg)
  | vmulLen (p : Pred) (t : BitVec 3) (vt va vb : VReg) (ra : GReg)
  | vor (p : Pred) (vt va vb : VReg) (ra : GReg)
  | vorLen (p : Pred) (vt va vb : VReg) (ra : GReg)
  | vscale (p : Pred) (t : BitVec 3) (vt va : VReg) (rb ra : GReg)
  | vscaleLen (p : Pred) (t : BitVec 3) (vt va : VReg) (rb ra : GReg)
  | vshl (p : Pred) (vt va : VReg) (ra : GReg)
  | vshr (p : Pred) (vt va : VReg) (ra : GReg)
  | vst (p : Pred) (seg : BitVec 3) (disp : BitVec 11) (vs : VReg) (rb ra : GReg)
  | vstx (p : Pred) (seg unused : BitVec 3) (sc : BitVec 2) (vs : VReg) (rc rb ra : GReg)
  | vsub (p : Pred) (t : BitVec 3) (vt va vb : VReg) (ra : GReg)
  | vsubLen (p : Pred) (t : BitVec 3) (vt va vb : VReg) (ra : GReg)
  | v2bits (p : Pred) (rt : GReg) (va : VReg) (ra : GReg)
  deriving DecidableEq, Repr

end Sys2Proof
end

