-- ==== Sys2Proof/WellFormed.lean ====
section
/-! DEFINITION. Which instructions the spec assigns: the checks on fields that the match of an opcode-table row leaves
free (R59, R62, R63). -/

namespace Sys2Proof

/-- `T3` is listed in the operand type table: 0, 1, 2 or 4 (R59). Type 4 is listed and has no meaning (D38). -/
def typeListed (t : BitVec 3) : Bool := t == 0 || t == 1 || t == 2 || t == 4

/-- The instruction's encoding is one the spec assigns: a listed type (R59, R62), and zeros in the unused bits of format
VLX (R63). VMAC's field `O3` is judged by the parameter `VMAC_O` (R162), when the instruction executes. -/
def Instr.wellFormed : Instr → Bool
  | .vadd _ t _ _ _ _ => typeListed t
  | .vaddLen _ t _ _ _ _ => typeListed t
  | .vand _ _ _ _ _ => true
  | .vandLen _ _ _ _ _ => true
  | .vbits2v _ _ _ _ => true
  | .vcmp _ t _ _ _ _ => typeListed t
  | .vcmpLen _ t _ _ _ _ => typeListed t
  | .veins _ _ _ _ => true
  | .veor _ _ _ _ _ => true
  | .veorLen _ _ _ _ _ => true
  | .vdiv _ t _ _ _ _ => typeListed t
  | .vdivLen _ t _ _ _ _ => typeListed t
  | .vex _ _ _ _ => true
  | .vflt2int _ _ _ _ => true
  | .vint2flt _ _ _ _ => true
  | .vld _ _ _ _ _ _ => true
  | .vldx _ _ unused _ _ _ _ _ => unused == 0
  | .vmac _ _ _ t _ _ _ _ _ => typeListed t
  | .vmul _ t _ _ _ _ => typeListed t
  | .vmulLen _ t _ _ _ _ => typeListed t
  | .vor _ _ _ _ _ => true
  | .vorLen _ _ _ _ _ => true
  | .vscale _ t _ _ _ _ => typeListed t
  | .vscaleLen _ t _ _ _ _ => typeListed t
  | .vshl _ _ _ _ => true
  | .vshr _ _ _ _ => true
  | .vst _ _ _ _ _ _ => true
  | .vstx _ _ unused _ _ _ _ _ => unused == 0
  | .vsub _ t _ _ _ _ => typeListed t
  | .vsubLen _ t _ _ _ _ => typeListed t
  | .v2bits _ _ _ _ => true

end Sys2Proof
end

