-- ==== Sys2Proof/Decode.lean ====
section
/-! DEFINITION. The decoder, total on any bytes and refusing by name, and the encoder, both written from the formats
R51 to R56 and the opcode map R57, R58, R64. An instruction word of 40 or 48 bits stands in the low bits of a 56-bit
word. -/

namespace Sys2Proof

/-! ## Opcode bytes and function codes -/

/-- Opcode 56h, format V40 (R52, R64). -/
def opcV40 : BitVec 8 := 0x56
/-- Opcode 57h, format V48 (R53, R64). -/
def opcV48 : BitVec 8 := 0x57
/-- Opcode 5Ah, format VM56 (R56, R64). -/
def opcVmac : BitVec 8 := 0x5A
/-- Opcode 89h, VLD (R54, R64). -/
def opcVld : BitVec 8 := 0x89
/-- Opcode B9h, VLDX (R55, R64). -/
def opcVldx : BitVec 8 := 0xB9
/-- `OPC_VST`, provisional value 99h (R64, D34; log 12). -/
def opcVst : BitVec 8 := 0x99
/-- `OPC_VSTX`, provisional value C9h (R64, D34; log 12). -/
def opcVstx : BitVec 8 := 0xC9

/-- The length in bytes of the instructions with this opcode byte; none for a byte of the base ISA (R50, U21). -/
def instrLength (opc : BitVec 8) : Option Nat :=
  if opc = opcV40 then some 5
  else if opc = opcV48 then some 6
  else if opc = opcVmac then some 7
  else if opc = opcVld then some 6
  else if opc = opcVldx then some 6
  else if opc = opcVst then some 6
  else if opc = opcVstx then some 6
  else none

/-! ## Words and bytes -/

/-- The bytes of an instruction, lowest address first, assembled little-endian (R32). -/
def wordOfBytes : List Byte → BitVec 56
  | [] => 0
  | b :: bs => (wordOfBytes bs <<< 8) ||| b.setWidth 56

/-- The low `n` bytes of an instruction word, lowest address first (R32). -/
def bytesOfWord (n : Nat) (w : BitVec 56) : List Byte :=
  (List.range n).map fun k => w.extractLsb' (8 * k) 8

/-- Format V40 (R52): `a` in bits 33:28, `b` in bits 27:22, `c` in bits 21:16. -/
def wordV40 (func a b c : BitVec 6) (p : Pred) : BitVec 56 :=
  0#16 ++ func ++ a ++ b ++ c ++ opcV40 ++ p.pn ++ p.pc

/-- Format V48 (R53): `a` in bits 39:34, `b` in bits 33:28, `c` in bits 27:22, `d` in bits 21:16. -/
def wordV48 (func : BitVec 5) (t : BitVec 3) (a b c d : BitVec 6) (p : Pred) : BitVec 56 :=
  0#8 ++ func ++ t ++ a ++ b ++ c ++ d ++ opcV48 ++ p.pn ++ p.pc

/-- Format VLS (R54): `a` in bits 33:28, `b` in bits 27:22, `c` in bits 21:16. -/
def wordVls (opc : BitVec 8) (seg : BitVec 3) (disp : BitVec 11) (a b c : BitVec 6) (p : Pred) : BitVec 56 :=
  0#8 ++ seg ++ disp ++ a ++ b ++ c ++ opc ++ p.pn ++ p.pc

/-- Format VLX (R55): `a` in bits 39:34, `b` in bits 33:28, `c` in bits 27:22, `d` in bits 21:16. -/
def wordVlx (opc : BitVec 8) (seg unused : BitVec 3) (sc : BitVec 2) (a b c d : BitVec 6) (p : Pred) : BitVec 56 :=
  0#8 ++ seg ++ unused ++ sc ++ a ++ b ++ c ++ d ++ opc ++ p.pn ++ p.pc

/-- Format VM56 (R56). -/
def wordVm56 (o : BitVec 3) (sn : BitVec 4) (t : BitVec 3) (vt vc vb va ra : BitVec 6) (p : Pred) : BitVec 56 :=
  o ++ sn ++ t ++ vt ++ vc ++ vb ++ va ++ ra ++ opcVmac ++ p.pn ++ p.pc

/-! ## Decoding -/

/-- Why bytes are no instruction of the extension. -/
inductive DecodeError where
  /-- Fewer bytes than the opcode byte asks for. -/
  | truncated
  /-- An opcode byte of the base ISA, which the spec does not describe (R50, U21). -/
  | unassignedOpcode (opc : BitVec 8)
  /-- A `Func5` that R57 does not assign (R62, U4). -/
  | unassignedFunc5 (func : BitVec 5)
  /-- VAND, VOR or VEOR with bits 42:40 not 0 (R62, U2). -/
  | logicalTypeNotZero (func : BitVec 5) (t : BitVec 3)
  /-- A `Func6` that R58 does not assign (R62, U5). -/
  | unassignedFunc6 (func : BitVec 6)
  deriving DecidableEq, Repr

/-- The predicate byte of a word (R51). -/
def predOf (w : BitVec 56) : Pred := ⟨w.extractLsb' 4 4, w.extractLsb' 0 4⟩

/-- The instruction under opcode 56h, by `Func6` in bits 39:34 (R52, R58; 07h is the provisional `FUNC6_VBITS2V`, log 12). -/
def decodeV40 (w : BitVec 56) : Except DecodeError Instr :=
  let p := predOf w
  let a := w.extractLsb' 28 6
  let b := w.extractLsb' 22 6
  let c := w.extractLsb' 16 6
  match w.extractLsb' 34 6 with
  | 0x00#6 => .ok (.vex p a b c)
  | 0x01#6 => .ok (.veins p a b c)
  | 0x02#6 => .ok (.vshl p a b c)
  | 0x03#6 => .ok (.vshr p a b c)
  | 0x04#6 => .ok (.vflt2int p a b c)
  | 0x05#6 => .ok (.vint2flt p a b c)
  | 0x06#6 => .ok (.v2bits p a b c)
  | 0x07#6 => .ok (.vbits2v p a b c)
  | func => .error (.unassignedFunc6 func)

/-- The logical instructions fix bits 42:40 to 0 (R53, R86, R90, R96). -/
def decodeLogical (func : BitVec 5) (t : BitVec 3) (i : Instr) : Except DecodeError Instr :=
  if t = 0 then .ok i else .error (.logicalTypeNotZero func t)

/-- The instruction under opcode 57h, by `Func5` in bits 47:43 (R53, R57). Bits 33:28 hold `Vb6`, bits 27:22 `Va6`; in VSCALE
they hold `Va6` and `Rb6`. -/
def decodeV48 (w : BitVec 56) : Except DecodeError Instr :=
  let p := predOf w
  let t := w.extractLsb' 40 3
  let vt := w.extractLsb' 34 6
  let hi := w.extractLsb' 28 6
  let lo := w.extractLsb' 22 6
  let ra := w.extractLsb' 16 6
  match w.extractLsb' 43 5 with
  | 0x00#5 => .ok (.vadd p t vt lo hi ra)
  | 0x01#5 => .ok (.vsub p t vt lo hi ra)
  | 0x02#5 => .ok (.vmul p t vt lo hi ra)
  | 0x03#5 => .ok (.vdiv p t vt lo hi ra)
  | 0x05#5 => .ok (.vscale p t vt hi lo ra)
  | 0x06#5 => .ok (.vcmp p t vt lo hi ra)
  | 0x08#5 => decodeLogical 0x08 t (.vand p vt lo hi ra)
  | 0x09#5 => decodeLogical 0x09 t (.vor p vt lo hi ra)
  | 0x0A#5 => decodeLogical 0x0A t (.veor p vt lo hi ra)
  | 0x10#5 => .ok (.vaddLen p t vt lo hi ra)
  | 0x11#5 => .ok (.vsubLen p t vt lo hi ra)
  | 0x12#5 => .ok (.vmulLen p t vt lo hi ra)
  | 0x13#5 => .ok (.vdivLen p t vt lo hi ra)
  | 0x15#5 => .ok (.vscaleLen p t vt hi lo ra)
  | 0x16#5 => .ok (.vcmpLen p t vt lo hi ra)
  | 0x18#5 => decodeLogical 0x18 t (.vandLen p vt lo hi ra)
  | 0x19#5 => decodeLogical 0x19 t (.vorLen p vt lo hi ra)
  | 0x1A#5 => decodeLogical 0x1A t (.veorLen p vt lo hi ra)
  | func => .error (.unassignedFunc5 func)

/-- The instruction in a word, by its opcode byte in bits 15:8 (R51, R64). -/
def decodeWord (w : BitVec 56) : Except DecodeError Instr :=
  let p := predOf w
  let seg := w.extractLsb' 45 3
  let opc := w.extractLsb' 8 8
  if opc = opcV40 then decodeV40 w
  else if opc = opcV48 then decodeV48 w
  else if opc = opcVmac then
    .ok (.vmac p (w.extractLsb' 53 3) (w.extractLsb' 49 4) (w.extractLsb' 46 3) (w.extractLsb' 40 6)
      (w.extractLsb' 22 6) (w.extractLsb' 28 6) (w.extractLsb' 34 6) (w.extractLsb' 16 6))
  else if opc = opcVld then
    .ok (.vld p seg (w.extractLsb' 34 11) (w.extractLsb' 28 6) (w.extractLsb' 22 6) (w.extractLsb' 16 6))
  else if opc = opcVst then
    .ok (.vst p seg (w.extractLsb' 34 11) (w.extractLsb' 28 6) (w.extractLsb' 22 6) (w.extractLsb' 16 6))
  else if opc = opcVldx then
    .ok (.vldx p seg (w.extractLsb' 42 3) (w.extractLsb' 40 2) (w.extractLsb' 34 6) (w.extractLsb' 28 6)
      (w.extractLsb' 22 6) (w.extractLsb' 16 6))
  else if opc = opcVstx then
    .ok (.vstx p seg (w.extractLsb' 42 3) (w.extractLsb' 40 2) (w.extractLsb' 34 6) (w.extractLsb' 28 6)
      (w.extractLsb' 22 6) (w.extractLsb' 16 6))
  else .error (.unassignedOpcode opc)

/-- The first instruction of a list of bytes and the bytes after it. The second byte, the opcode byte, gives the length
(R50). -/
def decode (bytes : List Byte) : Except DecodeError (Instr × List Byte) :=
  match bytes with
  | _ :: opc :: _ =>
    match instrLength opc with
    | none => .error (.unassignedOpcode opc)
    | some n =>
      if bytes.length < n then .error .truncated
      else match decodeWord (wordOfBytes (bytes.take n)) with
        | .ok i => .ok (i, bytes.drop n)
        | .error e => .error e
  | _ => .error .truncated

/-! ## Encoding -/

/-- The instruction's length in bytes (R50). -/
def Instr.ilen : Instr → Nat
  | .vex _ _ _ _ => 5
  | .veins _ _ _ _ => 5
  | .vshl _ _ _ _ => 5
  | .vshr _ _ _ _ => 5
  | .vflt2int _ _ _ _ => 5
  | .vint2flt _ _ _ _ => 5
  | .v2bits _ _ _ _ => 5
  | .vbits2v _ _ _ _ => 5
  | .vmac _ _ _ _ _ _ _ _ _ => 7
  | .vadd _ _ _ _ _ _ => 6
  | .vaddLen _ _ _ _ _ _ => 6
  | .vsub _ _ _ _ _ _ => 6
  | .vsubLen _ _ _ _ _ _ => 6
  | .vmul _ _ _ _ _ _ => 6
  | .vmulLen _ _ _ _ _ _ => 6
  | .vdiv _ _ _ _ _ _ => 6
  | .vdivLen _ _ _ _ _ _ => 6
  | .vscale _ _ _ _ _ _ => 6
  | .vscaleLen _ _ _ _ _ _ => 6
  | .vcmp _ _ _ _ _ _ => 6
  | .vcmpLen _ _ _ _ _ _ => 6
  | .vand _ _ _ _ _ => 6
  | .vandLen _ _ _ _ _ => 6
  | .vor _ _ _ _ _ => 6
  | .vorLen _ _ _ _ _ => 6
  | .veor _ _ _ _ _ => 6
  | .veorLen _ _ _ _ _ => 6
  | .vld _ _ _ _ _ _ => 6
  | .vst _ _ _ _ _ _ => 6
  | .vldx _ _ _ _ _ _ _ _ => 6
  | .vstx _ _ _ _ _ _ _ _ => 6

/-- The predicate fields of an instruction (R19, R51). -/
def Instr.pred : Instr → Pred
  | .vadd p _ _ _ _ _ => p
  | .vaddLen p _ _ _ _ _ => p
  | .vand p _ _ _ _ => p
  | .vandLen p _ _ _ _ => p
  | .vbits2v p _ _ _ => p
  | .vcmp p _ _ _ _ _ => p
  | .vcmpLen p _ _ _ _ _ => p
  | .veins p _ _ _ => p
  | .veor p _ _ _ _ => p
  | .veorLen p _ _ _ _ => p
  | .vdiv p _ _ _ _ _ => p
  | .vdivLen p _ _ _ _ _ => p
  | .vex p _ _ _ => p
  | .vflt2int p _ _ _ => p
  | .vint2flt p _ _ _ => p
  | .vld p _ _ _ _ _ => p
  | .vldx p _ _ _ _ _ _ _ => p
  | .vmac p _ _ _ _ _ _ _ _ => p
  | .vmul p _ _ _ _ _ => p
  | .vmulLen p _ _ _ _ _ => p
  | .vor p _ _ _ _ => p
  | .vorLen p _ _ _ _ => p
  | .vscale p _ _ _ _ _ => p
  | .vscaleLen p _ _ _ _ _ => p
  | .vshl p _ _ _ => p
  | .vshr p _ _ _ => p
  | .vst p _ _ _ _ _ => p
  | .vstx p _ _ _ _ _ _ _ => p
  | .vsub p _ _ _ _ _ => p
  | .vsubLen p _ _ _ _ _ => p
  | .v2bits p _ _ _ => p

/-- The opcode byte of an instruction (R51, R64). -/
def Instr.opcode : Instr → BitVec 8
  | .vadd _ _ _ _ _ _ => opcV48
  | .vaddLen _ _ _ _ _ _ => opcV48
  | .vand _ _ _ _ _ => opcV48
  | .vandLen _ _ _ _ _ => opcV48
  | .vbits2v _ _ _ _ => opcV40
  | .vcmp _ _ _ _ _ _ => opcV48
  | .vcmpLen _ _ _ _ _ _ => opcV48
  | .veins _ _ _ _ => opcV40
  | .veor _ _ _ _ _ => opcV48
  | .veorLen _ _ _ _ _ => opcV48
  | .vdiv _ _ _ _ _ _ => opcV48
  | .vdivLen _ _ _ _ _ _ => opcV48
  | .vex _ _ _ _ => opcV40
  | .vflt2int _ _ _ _ => opcV40
  | .vint2flt _ _ _ _ => opcV40
  | .vld _ _ _ _ _ _ => opcVld
  | .vldx _ _ _ _ _ _ _ _ => opcVldx
  | .vmac _ _ _ _ _ _ _ _ _ => opcVmac
  | .vmul _ _ _ _ _ _ => opcV48
  | .vmulLen _ _ _ _ _ _ => opcV48
  | .vor _ _ _ _ _ => opcV48
  | .vorLen _ _ _ _ _ => opcV48
  | .vscale _ _ _ _ _ _ => opcV48
  | .vscaleLen _ _ _ _ _ _ => opcV48
  | .vshl _ _ _ _ => opcV40
  | .vshr _ _ _ _ => opcV40
  | .vst _ _ _ _ _ _ => opcVst
  | .vstx _ _ _ _ _ _ _ _ => opcVstx
  | .vsub _ _ _ _ _ _ => opcV48
  | .vsubLen _ _ _ _ _ _ => opcV48
  | .v2bits _ _ _ _ => opcV40

/-- The vector registers that an instruction names (R13, R17). -/
def Instr.vregs : Instr → List VReg
  | .vadd _ _ vt va vb _ => [vt, va, vb]
  | .vaddLen _ _ vt va vb _ => [vt, va, vb]
  | .vand _ vt va vb _ => [vt, va, vb]
  | .vandLen _ vt va vb _ => [vt, va, vb]
  | .vbits2v _ vt _ _ => [vt]
  | .vcmp _ _ vt va vb _ => [vt, va, vb]
  | .vcmpLen _ _ vt va vb _ => [vt, va, vb]
  | .veins _ vt _ _ => [vt]
  | .veor _ vt va vb _ => [vt, va, vb]
  | .veorLen _ vt va vb _ => [vt, va, vb]
  | .vdiv _ _ vt va vb _ => [vt, va, vb]
  | .vdivLen _ _ vt va vb _ => [vt, va, vb]
  | .vex _ _ va _ => [va]
  | .vflt2int _ vt va _ => [vt, va]
  | .vint2flt _ vt va _ => [vt, va]
  | .vld _ _ _ vt _ _ => [vt]
  | .vldx _ _ _ _ vt _ _ _ => [vt]
  | .vmac _ _ _ _ vt va vb vc _ => [vt, va, vb, vc]
  | .vmul _ _ vt va vb _ => [vt, va, vb]
  | .vmulLen _ _ vt va vb _ => [vt, va, vb]
  | .vor _ vt va vb _ => [vt, va, vb]
  | .vorLen _ vt va vb _ => [vt, va, vb]
  | .vscale _ _ vt va _ _ => [vt, va]
  | .vscaleLen _ _ vt va _ _ => [vt, va]
  | .vshl _ vt va _ => [vt, va]
  | .vshr _ vt va _ => [vt, va]
  | .vst _ _ _ vs _ _ => [vs]
  | .vstx _ _ _ _ vs _ _ _ => [vs]
  | .vsub _ _ vt va vb _ => [vt, va, vb]
  | .vsubLen _ _ vt va vb _ => [vt, va, vb]
  | .v2bits _ _ va _ => [va]

/-- The word of an instruction (R52 to R58, R64). -/
def encodeWord : Instr → BitVec 56
  | .vex p rt va ra => wordV40 0x00 rt va ra p
  | .veins p vt rb ra => wordV40 0x01 vt rb ra p
  | .vshl p vt va ra => wordV40 0x02 vt va ra p
  | .vshr p vt va ra => wordV40 0x03 vt va ra p
  | .vflt2int p vt va ra => wordV40 0x04 vt va ra p
  | .vint2flt p vt va ra => wordV40 0x05 vt va ra p
  | .v2bits p rt va ra => wordV40 0x06 rt va ra p
  | .vbits2v p vt rb ra => wordV40 0x07 vt rb ra p
  | .vadd p t vt va vb ra => wordV48 0x00 t vt vb va ra p
  | .vaddLen p t vt va vb ra => wordV48 0x10 t vt vb va ra p
  | .vsub p t vt va vb ra => wordV48 0x01 t vt vb va ra p
  | .vsubLen p t vt va vb ra => wordV48 0x11 t vt vb va ra p
  | .vmul p t vt va vb ra => wordV48 0x02 t vt vb va ra p
  | .vmulLen p t vt va vb ra => wordV48 0x12 t vt vb va ra p
  | .vdiv p t vt va vb ra => wordV48 0x03 t vt vb va ra p
  | .vdivLen p t vt va vb ra => wordV48 0x13 t vt vb va ra p
  | .vscale p t vt va rb ra => wordV48 0x05 t vt va rb ra p
  | .vscaleLen p t vt va rb ra => wordV48 0x15 t vt va rb ra p
  | .vcmp p t vt va vb ra => wordV48 0x06 t vt vb va ra p
  | .vcmpLen p t vt va vb ra => wordV48 0x16 t vt vb va ra p
  | .vand p vt va vb ra => wordV48 0x08 0 vt vb va ra p
  | .vandLen p vt va vb ra => wordV48 0x18 0 vt vb va ra p
  | .vor p vt va vb ra => wordV48 0x09 0 vt vb va ra p
  | .vorLen p vt va vb ra => wordV48 0x19 0 vt vb va ra p
  | .veor p vt va vb ra => wordV48 0x0A 0 vt vb va ra p
  | .veorLen p vt va vb ra => wordV48 0x1A 0 vt vb va ra p
  | .vld p seg disp vt rb ra => wordVls opcVld seg disp vt rb ra p
  | .vst p seg disp vs rb ra => wordVls opcVst seg disp vs rb ra p
  | .vldx p seg unused sc vt rc rb ra => wordVlx opcVldx seg unused sc vt rc rb ra p
  | .vstx p seg unused sc vs rc rb ra => wordVlx opcVstx seg unused sc vs rc rb ra p
  | .vmac p o sn t vt va vb vc ra => wordVm56 o sn t vt vc vb va ra p

/-- The bytes of an instruction, lowest address first (R32). -/
def encode (i : Instr) : List Byte := bytesOfWord i.ilen (encodeWord i)

/-- The bytes of an opcode-table word of `nbits` bits, padded with zeros to the longest instruction, 7 bytes. -/
def tableBytes (nbits w : Nat) : List Byte := bytesOfWord 7 (BitVec.ofNat 56 (w % 2 ^ nbits))

/-- The instruction the decoder reads from an opcode-table word of `nbits` bits. -/
def decodeTableWord (nbits w : Nat) : Option Instr :=
  match decode (tableBytes nbits w) with
  | .ok (i, _) => some i
  | .error _ => none

end Sys2Proof
end

