-- ==== Sys2Proof/Machine/State.lean ====
section
/-! DEFINITION. The machine's state as plain data (R5), its faults and refusals, and the state after reset. -/

namespace Sys2Proof.Machine

/-- The exceptions the spec names, complete list (R170). -/
inductive Exc where
  | dbe
  | dbg
  | lmt
  | tlb
  deriving DecidableEq, Repr

/-- The `kind` of an access (R36). -/
inductive AccessKind where
  | load
  | store
  deriving DecidableEq, Repr

/-- What `Translate` answers: the offset plus a displacement, or one of its two exceptions (R36, R171). -/
inductive XlateAnswer where
  | plus (delta : Word)
  | lmt
  | tlb
  deriving DecidableEq, Repr, Inhabited

/-- A piece of the opaque state `S` that `Translate` reads (R21, R36): what it answers for the offsets `lo` to `hi` of the
segment `seg` under an access of the kind `kind`; none stands for every segment, and for both kinds (log 7). -/
structure XlateRule where
  seg : Option (BitVec 3)
  kind : Option AccessKind
  lo : Word
  hi : Word
  answer : XlateAnswer
  deriving DecidableEq, Repr

/-- The exceptions of `MemFault` (R171). -/
inductive MemExc where
  | dbe
  | dbg
  deriving DecidableEq, Repr

/-- What the platform answers to an access that it does not let proceed: an exception of `MemFault` (R171), or that the
address is no ordinary memory (R35). -/
inductive AccessAnswer where
  | dbe
  | dbg
  | device
  deriving DecidableEq, Repr

/-- A piece of a given platform (R31, R171): what it answers to an access of the kind `kind` (none stands for both) at the
addresses `lo` to `hi`; the answer none lets the access proceed (log 8). -/
structure AccessRule where
  kind : Option AccessKind
  lo : Word
  hi : Word
  answer : Option AccessAnswer
  deriving DecidableEq, Repr

/-- The bytes of memory that do not read as 00h, by strictly rising address (R30; log 3). -/
abbrev Mem := List Host.Cell

/-- The canonical form of memory: addresses strictly rising and inside the address space, and no entry that reads as an
unlisted address does (log 3). -/
abbrev Mem.wf (m : Mem) : Prop :=
  m.Pairwise (fun c d => c.1 < d.1) ∧ ∀ c ∈ m, c.1 < 2 ^ 64 ∧ c.2 ≠ 0

/-- Everything the spec gives the machine (R5, 10_state.md section 9), the parameters of the model (log 5) and the counter
of its free draws (log 16). -/
structure State where
  /-- The byte address of the instruction being executed (R18). -/
  pc : Word
  /-- The general purpose registers (R10); read and written through `gpr` and `setGpr` only. -/
  x : Vector Word 64
  /-- The vector registers, each an array of elements (R13, R14, R15). -/
  v : Vector (Vector Word 64) 64
  /-- The predicate state `P`: bit `c` of register `n` is `PredHolds(n, c, P)` (R19; log 4). -/
  pred : Vector (BitVec 16) 16
  /-- What is given of the segment and translation state `S` (R21, R36; log 7). -/
  xlate : List XlateRule
  /-- What is given of the platform (R31, R171; log 8). -/
  access : List AccessRule
  /-- Memory (R22, R30). -/
  mem : Mem
  /-- Where the program text begins (R38; log 10). -/
  textBase : Word
  /-- How many bytes the program text has (R38; log 10). -/
  textSize : Nat
  /-- The open parameters; no step writes them (R5; log 5). -/
  params : Params
  /-- The model's own counter of free draws (R130, U16; log 16). -/
  freeIx : Nat
  deriving DecidableEq, Repr

/-- The machine stops with a fault. -/
inductive Fault where
  /-- VLD, VLDX, VST or VSTX raises the exception `e` at the address `pc` of the instruction, and the run ends (R172, R177);
  `addr` is the memory address that the raise of R142 to R145 names for DBE and DBG. Safe: the spec gives no trap entry
  (log 9). -/
  | raised (e : Exc) (pc : Word) (addr : Option Word)
  deriving DecidableEq, Repr

/-- The spec gives the case no meaning (its `refuse`), or the model has none yet. Every refusal is safe: the run has no
next state. -/
inductive Refusal where
  /-- An arm of exec that has no meaning yet. -/
  | notModelled (mnemonic : String)
  /-- The step: the bytes at the pc are no instruction of the extension (R50, R62; U2, U4, U5, U21). -/
  | undecodable (e : DecodeError)
  /-- A typed instruction with `T3` = 3, 5, 6 or 7 (R62, U1). -/
  | reservedType (t : BitVec 3)
  /-- A typed instruction with `T3` = 4, Float Quad (R82, U3). -/
  | floatQuad
  /-- VLDX or VSTX with bits 44:42 not 0 (R63, U6). -/
  | unusedBitsSet
  /-- An element index at or above `VL_MAX` (R80, R121, R141, U7). -/
  | elementIndexOutOfRange
  /-- A length above `VL_MAX` (R81, R121, U8). -/
  | vectorLengthOutOfRange
  /-- A vector register number at or above `NVREG` (R13, U9). -/
  | noSuchVectorRegister
  /-- VMAC with `VMAC_O(O3)` reserved (R162, U13). -/
  | vmacFormReserved (o : BitVec 3)
  /-- VSHL with the length `VL_MAX` (R128, U14). -/
  | shiftPastLastElement
  /-- VSHR with the length 0 (R129, U15). -/
  | shiftOfNoElements
  /-- A load or store at an offset that is not a multiple of 8 under `MISALIGNED = refuse` (R34, U17). -/
  | misalignedAccess
  /-- A load or store at an address that the platform says is no ordinary memory (R35). -/
  | notOrdinaryMemory
  /-- A store whose bytes overlap the program text (R38, U24). -/
  | storeToProgramText
  /-- `pc + ilen` is beyond the top of the address space (R18, U25). -/
  | pcPastTop
  /-- The step: the pc stands just past the program text, the end of the run (R196). -/
  | endOfRun
  /-- The step: a byte of the instruction lies outside the program text (R38). -/
  | fetchOutsideText
  deriving DecidableEq, Repr

/-- The predicate state at reset: `PredHolds(0, 1, P)` is true, as D6 has it, and nothing else holds (DESIGN CHOICE, log 4). -/
def resetPred : Vector (BitVec 16) 16 := (Vector.replicate 16 0).set 0 0x0002

/-- The machine right after reset. The spec states no reset value (R24, R190): registers, elements and pc hold 0 (DESIGN
CHOICE, logs 1, 2), memory lists nothing (log 3), the platform given is the provisional one of 95_test_vectors.md (`Translate`
is the identity and every access inside the address space proceeds; DESIGN CHOICE, logs 7, 8), there is no program (log 10),
and the parameters are those of log 6. -/
def State.reset : State where
  pc := 0
  x := Vector.replicate 64 0
  v := Vector.replicate 64 (Vector.replicate 64 0)
  pred := resetPred
  xlate := [⟨none, none, 0, 0xFFFFFFFFFFFFFFFF, .plus 0⟩]
  access := [⟨none, 0, 0xFFFFFFFFFFFFFFFF, none⟩]
  mem := []
  textBase := 0
  textSize := 0
  params := Params.provisional
  freeIx := 0

end Sys2Proof.Machine
end

