-- ==== Sys2Proof/Machine/Ops.lean ====
section
/-! DEFINITION. The named operations over registers, elements, memory and the pc: the pseudocode primitives of
00_scope.md section 5, the access sequence of 20_memory.md section 7, `raise` (R172) and the fetch (R38). -/

namespace Sys2Proof

/-- What `Translate` answers to an access of which nothing is given: unconstrained, so any address or either of its exceptions,
and a function of the whole state, so that two accesses of a run may be answered differently (R36, R171, U18; log 7). -/
opaque Config.translate : Machine.State → BitVec 3 → Word → Machine.AccessKind → Machine.XlateAnswer

/-- `MemFault(kind, addr, 8, s)` where no platform is given: unconstrained, so each access may raise either of its exceptions,
whatever an earlier access of the same address did (R171, U18; log 8). -/
opaque Config.memFault : Machine.State → Machine.AccessKind → Word → Option Machine.MemExc

end Sys2Proof

namespace Sys2Proof.Machine

/-- What a step or a meaning answers. -/
abbrev Out := Host.Outcome State Fault Refusal

/-! ## General purpose registers -/

/-- `x[i]`: register 0 reads as 0 when `R0_IS_ZERO` (R10, R11). -/
def State.gpr (s : State) (i : GReg) : Word :=
  if s.params.r0IsZero = true ∧ i = 0 then 0 else s.x[i.toNat]'i.isLt

/-- `x[i] <- w`: a write to register 0 is dropped when `R0_IS_ZERO` (R11). -/
def State.setGpr (s : State) (i : GReg) (w : Word) : State :=
  if s.params.r0IsZero = true ∧ i = 0 then s else { s with x := s.x.set i.toNat w i.isLt }

/-! ## Vector registers -/

/-- `VL_MAX`, the number of elements of a vector register (R14). -/
def State.vlMax (s : State) : Nat := s.params.elemTop.val + 1

/-- The implementation has the vector register `r`: its number is below `NVREG` (R13). -/
def State.hasVReg (s : State) (r : VReg) : Bool := r.toNat ≤ s.params.vregTop.val

/-- The whole register `v[r]`. -/
def State.vreg (s : State) (r : VReg) : Vector Word 64 := s.v[r.toNat]'r.isLt

/-- `v[r][e]` (R14). -/
def State.elem (s : State) (r : VReg) (e : ElemIx) : Word := (s.vreg r)[e.val]

/-- `v[r] <- f`, the whole register. -/
def State.setVReg (s : State) (r : VReg) (f : Vector Word 64) : State :=
  { s with v := s.v.set r.toNat f r.isLt }

/-- `v[r][e] <- w`: no other element changes (R80, D10). -/
def State.setElem (s : State) (r : VReg) (e : ElemIx) (w : Word) : State :=
  s.setVReg r ((s.vreg r).set e.val w)

/-- `v[r][e] <- f e` for the elements 0 to `n - 1`, all read from the state before (R81, R122, R102); the others keep their
values (D10). -/
def State.setElems (s : State) (r : VReg) (n : Nat) (f : ElemIx → Word) : State :=
  s.setVReg r (Vector.ofFn fun e => if e.val < n then f e else s.elem r e)

/-! ## The pc -/

/-- `pc <- pc + n`, the end of every instruction; beyond the top of the address space it is refused (R18, U25). -/
def State.advance (s : State) (n : Nat) : Out :=
  if s.pc.toNat + n < 2 ^ 64 then .next { s with pc := s.pc + BitVec.ofNat 64 n } else .refused .pcPastTop

/-! ## Memory -/

/-- The byte at an address; one that is not listed reads 00h (log 3). -/
def Mem.read : Mem → Nat → Byte
  | [], _ => 0
  | (k, b) :: m, a => if k = a then b else Mem.read m a

/-- An entry for the byte `b` at `a` before the entries `m`; none for 00h, which is what an unlisted address reads. -/
def Mem.cons (a : Nat) (b : Byte) (m : Mem) : Mem := if b = 0 then m else (a, b) :: m

/-- The byte `b` at the address `a`, in canonical form. -/
def Mem.write : Mem → Nat → Byte → Mem
  | [], a, b => Mem.cons a b []
  | (k, c) :: m, a, b =>
    if a < k then Mem.cons a b ((k, c) :: m)
    else if a = k then Mem.cons a b m
    else (k, c) :: Mem.write m a b

/-- The bytes `bs` at the address `a` and those after it. -/
def Mem.writeBytes : Mem → Nat → List Byte → Mem
  | m, _, [] => m
  | m, a, b :: bs => Mem.writeBytes (m.write a b) (a + 1) bs

/-- `MemRead(a, 8)`: the byte at `a` is bits 7:0 (R32). -/
def Mem.read64 (m : Mem) (a : Nat) : Word :=
  m.read (a + 7) ++ m.read (a + 6) ++ m.read (a + 5) ++ m.read (a + 4) ++
    m.read (a + 3) ++ m.read (a + 2) ++ m.read (a + 1) ++ m.read a

/-- The eight bytes of a word, bits 7:0 first (R32). -/
def bytesOf64 (w : Word) : List Byte := (List.range 8).map fun k => w.extractLsb' (8 * k) 8

/-- `MemWrite(a, 8, w)` (R32). -/
def Mem.write64 (m : Mem) (a : Nat) (w : Word) : Mem := m.writeBytes a (bytesOf64 w)

/-! ## Translation, the platform's answers, and raising -/

/-- `raise e(addr)`: the instruction ends without writing any state, and the run ends in a fault outcome with the exception's
name and the instruction's address (R172; log 9). -/
def State.raise (s : State) (e : Exc) (addr : Option Word) : Out := .fault (.raised e s.pc addr)

/-- The rule speaks of this access. -/
def XlateRule.covers (r : XlateRule) (seg : BitVec 3) (kind : AccessKind) (ea : Word) : Bool :=
  r.seg.all (· == seg) && r.kind.all (· == kind) && decide (r.lo ≤ ea) && decide (ea ≤ r.hi)

/-- `Translate`'s answer: that of the first rule given that covers the access; where none does, it is unconstrained (R36, R171;
log 7). -/
def State.xlateAnswer (s : State) (seg : BitVec 3) (ea : Word) (kind : AccessKind) : XlateAnswer :=
  match s.xlate.find? (fun r => r.covers seg kind ea) with
  | some r => r.answer
  | none => Config.translate s seg ea kind

/-- `Translate(seg, ea, kind, 8)`: a memory address, or LMT or TLB (R36, R171, D22). -/
def State.translate (s : State) (seg : BitVec 3) (ea : Word) (kind : AccessKind) : Except Exc Word :=
  match s.xlateAnswer seg ea kind with
  | .plus delta => .ok (ea + delta)
  | .lmt => .error .lmt
  | .tlb => .error .tlb

/-- The rule speaks of this access. -/
def AccessRule.covers (r : AccessRule) (kind : AccessKind) (addr : Word) : Bool :=
  r.kind.all (· == kind) && decide (r.lo ≤ addr) && decide (addr ≤ r.hi)

/-- The exception as the platform's answer. -/
def MemExc.answer : MemExc → AccessAnswer
  | .dbe => .dbe
  | .dbg => .dbg

/-- The platform's answer: that of the first rule given that covers the access; where none does, `MemFault` is unconstrained
(R171; log 8). -/
def State.platformAnswer (s : State) (kind : AccessKind) (addr : Word) : Option AccessAnswer :=
  match s.access.find? (fun r => r.covers kind addr) with
  | some r => r.answer
  | none => (Config.memFault s kind addr).map MemExc.answer

/-- `MemFault(kind, addr, 8, s)`, with the answer that the address is no ordinary memory (R35); none lets the access proceed.
An access that would proceed but whose bytes reach beyond the top of the address space raises DBE, since they do not exist
(R31, R171; log 8). -/
def State.memFault (s : State) (kind : AccessKind) (addr : Word) : Option AccessAnswer :=
  match s.platformAnswer kind addr with
  | some a => some a
  | none => if addr.toNat + 8 ≤ 2 ^ 64 then none else some .dbe

/-- The access sequence of 20_memory.md section 7 for the offset `ea` in the segment `seg`: the alignment test (R34), `Translate`
(R36), then `MemFault` (R171, R176); `k` goes on with the memory address. -/
def State.accessAt (s : State) (kind : AccessKind) (seg : BitVec 3) (ea : Word) (k : Word → Out) : Out :=
  if s.params.misaligned = .refuse ∧ ea.toNat % 8 ≠ 0 then .refused .misalignedAccess
  else
    match s.translate seg ea kind with
    | .error e => s.raise e none
    | .ok addr =>
      match s.memFault kind addr with
      | some .dbe => s.raise .dbe (some addr)
      | some .dbg => s.raise .dbg (some addr)
      | some .device => .refused .notOrdinaryMemory
      | none => k addr

/-! ## The program text and the fetch -/

/-- The byte at `a` belongs to the program text (R38). -/
def State.inText (s : State) (a : Nat) : Bool :=
  decide (s.textBase.toNat ≤ a) && decide (a < s.textBase.toNat + s.textSize) && decide (a < 2 ^ 64)

/-- Some of the eight bytes from `a` belong to the program text (R38). -/
def State.overlapsText (s : State) (a : Nat) : Bool := (List.range 8).any fun k => s.inText (a + k)

/-- The `n` bytes at the pc, all of them in the program text (R38). -/
def State.textBytes (s : State) (n : Nat) : Except Refusal (List Byte) :=
  if (List.range n).all fun k => s.inText (s.pc.toNat + k) then
    .ok ((List.range n).map fun k => s.mem.read (s.pc.toNat + k))
  else .error .fetchOutsideText

/-- The bytes of the instruction at the pc: the second byte, the opcode byte, gives their number (R38, R50). Just past the
program text the run ends (R196). -/
def State.fetch (s : State) : Except Refusal (List Byte) :=
  if s.pc.toNat = s.textBase.toNat + s.textSize then .error .endOfRun
  else
    match s.textBytes 2 with
    | .error r => .error r
    | .ok _ => s.textBytes ((instrLength (s.mem.read (s.pc.toNat + 1))).getD 2)

/-- `s` with a program text of these bytes, as many as the address space has room for, loaded at the pc (log 11). -/
def State.loadText (s : State) (bytes : List Byte) : State :=
  let bs := bytes.take (2 ^ 64 - s.pc.toNat)
  { s with mem := s.mem.writeBytes s.pc.toNat bs, textBase := s.pc, textSize := bs.length }

end Sys2Proof.Machine
end

