-- ==== Sys2Proof/Machine/Flags.lean ====
section
/-! DEFINITION. The extension has no status flag (R20). What takes the place of a condition here: the predicate test that
begins every instruction (R19), and the three-way result of a comparison (R88). -/

namespace Sys2Proof.Machine

/-- `PredHolds(Pn, Pc, P)` (R19; log 4). -/
def State.predHolds (s : State) (p : Pred) : Bool := (s.pred[p.pn.toNat]'p.pn.isLt).getLsbD p.pc.toNat

/-- The predicate test: an instruction of `ilen` bytes whose predicate does not hold only advances the pc (R19, D6). -/
def State.predicated (s : State) (p : Pred) (ilen : Nat) (body : Out) : Out :=
  if s.predHolds p then body else s.advance ilen

/-- The element that records a comparison: -1, 0 or +1 as a 64-bit integer (R88, D14). -/
def threeWay : Ordering → Word
  | .lt => 0xFFFFFFFFFFFFFFFF
  | .eq => 0
  | .gt => 1

/-- The signed order of two integer elements (R88, D14). -/
def signedOrder (a b : Word) : Ordering :=
  if a.toInt < b.toInt then .lt else if a.toInt = b.toInt then .eq else .gt

end Sys2Proof.Machine
end

