-- ==== Sys2Proof/Machine/Operands.lean ====
section
/-! DEFINITION. The operand forms: types (R59, R82), vector registers (R13), element indexes and lengths (R80, R81, R121),
effective addresses (R140), and the element operations (R84 to R101, R163). -/

namespace Sys2Proof.Machine

/-! ## Operand types -/

/-- The operand types that have a meaning (R82). -/
inductive OperandType where
  | integer
  | float (f : FloatType)
  deriving DecidableEq, Repr

/-- The type that `T3` names: Float Quad and the reserved values are refused (R59, R62, R82; U1, U3). -/
def operandType (t : BitVec 3) : Except Refusal OperandType :=
  if t = 0 then .ok .integer
  else if t = 1 then .ok (.float .single)
  else if t = 2 then .ok (.float .double)
  else if t = 4 then .error .floatQuad
  else .error (.reservedType t)

/-- Goes on with the type that `T3` names. -/
def withType (t : BitVec 3) (body : OperandType → Out) : Out :=
  match operandType t with
  | .ok ty => body ty
  | .error r => .refused r

/-! ## Registers, indexes and lengths -/

/-- Goes on if every vector register named is one the implementation has (R13, U9). -/
def State.withVRegs (s : State) (rs : List VReg) (body : Out) : Out :=
  if rs.all s.hasVReg then body else .refused .noSuchVectorRegister

/-- Goes on with the element index in register `r`, the whole register unsigned; at or above `VL_MAX` it is refused (R80,
R121, D9, U7). -/
def State.withIndex (s : State) (r : GReg) (body : ElemIx → Out) : Out :=
  if h : (s.gpr r).toNat ≤ s.params.elemTop.val then
    body ⟨(s.gpr r).toNat, Nat.lt_of_le_of_lt h s.params.elemTop.isLt⟩
  else .refused .elementIndexOutOfRange

/-- Goes on with the length in register `r`, the whole register unsigned; above `VL_MAX` it is refused (R81, R121, D9, U8). -/
def State.withLength (s : State) (r : GReg) (body : Nat → Out) : Out :=
  if (s.gpr r).toNat ≤ s.vlMax then body (s.gpr r).toNat else .refused .vectorLengthOutOfRange

/-- The template of an element form (R80): the element of `vt` that `ra` numbers becomes `f` of its index. -/
def State.elementForm (s : State) (ilen : Nat) (rs : List VReg) (vt : VReg) (ra : GReg) (f : ElemIx → Word) : Out :=
  s.withVRegs (vt :: rs) (s.withIndex ra fun e => (s.setElem vt e (f e)).advance ilen)

/-- The template of a length form (R81): the elements 0 to `x[ra] - 1` of `vt` become `f` of their indexes, as one step. -/
def State.lengthForm (s : State) (ilen : Nat) (rs : List VReg) (vt : VReg) (ra : GReg) (f : ElemIx → Word) : Out :=
  s.withVRegs (vt :: rs) (s.withLength ra fun n => (s.setElems vt n f).advance ilen)

/-! ## Effective addresses -/

/-- Register indirect with displacement: the displacement is sign-extended, the sum is modulo 2^64 (R61, R140; D20, D39). -/
def State.eaDisp (s : State) (disp : BitVec 11) (ra : GReg) : Word := s.gpr ra + disp.signExtend 64

/-- Scaled indexed: the factor is `2 ^ Sc2`, all modulo 2^64 (R61, R140; D21, D39). -/
def State.eaIndexed (s : State) (sc : BitVec 2) (rb ra : GReg) : Word := s.gpr ra + (s.gpr rb <<< sc.toNat)

/-! ## Element operations -/

/-- `OP` of VADD (R84). -/
def opAdd : OperandType → Word → Word → Word
  | .integer, a, b => a + b
  | .float f, a, b => Config.fAdd f a b

/-- `OP` of VSUB: `a` is the minuend (R100). -/
def opSub : OperandType → Word → Word → Word
  | .integer, a, b => a - b
  | .float f, a, b => Config.fSub f a b

/-- `OP` of VMUL and VSCALE: the low 64 bits of an integer product (R94, R98, D13, D37). -/
def opMul : OperandType → Word → Word → Word
  | .integer, a, b => a * b
  | .float f, a, b => Config.fMul f a b

/-- `IDiv`: signed, truncated toward zero; a zero divisor and `-2^63 / -1`, where the spec states no quotient, give a free
value (R92, D15, U10; log 13). -/
def iDiv (a b : Word) : Word :=
  if b = 0 ∨ (a = 0x8000000000000000 ∧ b = 0xFFFFFFFFFFFFFFFF) then Config.iDivCorner a b
  else BitVec.ofInt 64 (a.toInt.tdiv b.toInt)

/-- `OP` of VDIV: `a` is the dividend (R92). -/
def opDiv : OperandType → Word → Word → Word
  | .integer, a, b => iDiv a b
  | .float f, a, b => Config.fDiv f a b

/-- `OP` of VCMP; the result is an integer in every type (R88, D14). -/
def opCmp : OperandType → Word → Word → Word
  | .integer, a, b => threeWay (signedOrder a b)
  | .float f, a, b => threeWay (Config.fCmp f a b)

/-- The negation of `a` modulo 2^64 if the bit is set (R161). -/
def negIf (b : Bool) (a : Word) : Word := if b then 0 - a else a

/-- The result of VMAC for one element: bit 0 of `Sn4` inverts `Va`, bit 1 `Vb`, bit 2 `Vc`, bit 3 the result (R161, R163, D27). -/
def opMac (sn : BitVec 4) : OperandType → Word → Word → Word → Word
  | .integer, a, b, c =>
    negIf (sn.getLsbD 3) (negIf (sn.getLsbD 0) a * negIf (sn.getLsbD 1) b + negIf (sn.getLsbD 2) c)
  | .float f, a, b, c => Config.fMac f sn a b c

/-! ## Element neighbours and bits -/

/-- The element index below `e` (of index 0, itself). -/
def elemBelow (e : ElemIx) : ElemIx := ⟨e.val - 1, by omega⟩

/-- The element index above `e` (of the last, itself). -/
def elemAbove (e : ElemIx) : ElemIx := ⟨min (e.val + 1) 63, by omega⟩

/-- Bit `e` of a register as an element: 0 or 1 (R123, D18). -/
def boolElem (w : Word) (e : ElemIx) : Word := if w.getLsbD e.val then 1 else 0

/-- The bits that V2BITS leaves at and above the length, and the state with the free draw made, if there is one (R130, D19,
U16; log 16). -/
def State.v2bitsUpper (s : State) (rt : GReg) : Word × State :=
  match s.params.v2bitsUpper with
  | .zero => (0, s)
  | .preserve => (s.gpr rt, s)
  | .any => (Config.freeWord s.freeIx, { s with freeIx := s.freeIx + 1 })

/-- The low bit of each of the elements 0 to `n - 1` of `va` in its place, and the bits of `upper` above them (R130). -/
def State.gatherBits (s : State) (va : VReg) (n : Nat) (upper : Word) : Word :=
  BitVec.ofFnLE fun e : ElemIx => if e.val < n then (s.elem va e).getLsbD 0 else upper.getLsbD e.val

end Sys2Proof.Machine
end

