-- ==== Sys2Proof/Machine/Arith57.lean ====
section
/-! DEFINITION. Vector arithmetic, compare and logic, opcode 57h: nine instructions, each in an element form (R80) and a length
form (R81), 6 bytes, in the order of 40_vector_arith_57h.md. -/

namespace Sys2Proof.Machine

/-- VADD, `Va + Vb`, element form (R84). -/
def execVadd (p : Pred) (t : BitVec 3) (vt va vb : VReg) (ra : GReg) (s : State) : Out :=
  s.predicated p 6 (withType t fun ty => s.elementForm 6 [va, vb] vt ra fun e => opAdd ty (s.elem va e) (s.elem vb e))

/-- VADD, `Va + Vb`, length form (R85). -/
def execVaddLen (p : Pred) (t : BitVec 3) (vt va vb : VReg) (ra : GReg) (s : State) : Out :=
  s.predicated p 6 (withType t fun ty => s.lengthForm 6 [va, vb] vt ra fun e => opAdd ty (s.elem va e) (s.elem vb e))

/-- VAND, `Va & Vb`, element form (R86). -/
def execVand (p : Pred) (vt va vb : VReg) (ra : GReg) (s : State) : Out :=
  s.predicated p 6 (s.elementForm 6 [va, vb] vt ra fun e => s.elem va e &&& s.elem vb e)

/-- VAND, `Va & Vb`, length form (R87). -/
def execVandLen (p : Pred) (vt va vb : VReg) (ra : GReg) (s : State) : Out :=
  s.predicated p 6 (s.lengthForm 6 [va, vb] vt ra fun e => s.elem va e &&& s.elem vb e)

/-- VCMP, the three-way comparison of `Va` with `Vb`, element form (R88). -/
def execVcmp (p : Pred) (t : BitVec 3) (vt va vb : VReg) (ra : GReg) (s : State) : Out :=
  s.predicated p 6 (withType t fun ty => s.elementForm 6 [va, vb] vt ra fun e => opCmp ty (s.elem va e) (s.elem vb e))

/-- VCMP, the three-way comparison of `Va` with `Vb`, length form (R89). -/
def execVcmpLen (p : Pred) (t : BitVec 3) (vt va vb : VReg) (ra : GReg) (s : State) : Out :=
  s.predicated p 6 (withType t fun ty => s.lengthForm 6 [va, vb] vt ra fun e => opCmp ty (s.elem va e) (s.elem vb e))

/-- VEOR, `Va ^ Vb`, element form (R90). -/
def execVeor (p : Pred) (vt va vb : VReg) (ra : GReg) (s : State) : Out :=
  s.predicated p 6 (s.elementForm 6 [va, vb] vt ra fun e => s.elem va e ^^^ s.elem vb e)

/-- VEOR, `Va ^ Vb`, length form (R91). -/
def execVeorLen (p : Pred) (vt va vb : VReg) (ra : GReg) (s : State) : Out :=
  s.predicated p 6 (s.lengthForm 6 [va, vb] vt ra fun e => s.elem va e ^^^ s.elem vb e)

/-- VDIV, `Va / Vb`, element form (R92). -/
def execVdiv (p : Pred) (t : BitVec 3) (vt va vb : VReg) (ra : GReg) (s : State) : Out :=
  s.predicated p 6 (withType t fun ty => s.elementForm 6 [va, vb] vt ra fun e => opDiv ty (s.elem va e) (s.elem vb e))

/-- VDIV, `Va / Vb`, length form (R93). -/
def execVdivLen (p : Pred) (t : BitVec 3) (vt va vb : VReg) (ra : GReg) (s : State) : Out :=
  s.predicated p 6 (withType t fun ty => s.lengthForm 6 [va, vb] vt ra fun e => opDiv ty (s.elem va e) (s.elem vb e))

/-- VMUL, `Va * Vb`, element form (R94). -/
def execVmul (p : Pred) (t : BitVec 3) (vt va vb : VReg) (ra : GReg) (s : State) : Out :=
  s.predicated p 6 (withType t fun ty => s.elementForm 6 [va, vb] vt ra fun e => opMul ty (s.elem va e) (s.elem vb e))

/-- VMUL, `Va * Vb`, length form (R95). -/
def execVmulLen (p : Pred) (t : BitVec 3) (vt va vb : VReg) (ra : GReg) (s : State) : Out :=
  s.predicated p 6 (withType t fun ty => s.lengthForm 6 [va, vb] vt ra fun e => opMul ty (s.elem va e) (s.elem vb e))

/-- VOR, `Va | Vb`, element form (R96). -/
def execVor (p : Pred) (vt va vb : VReg) (ra : GReg) (s : State) : Out :=
  s.predicated p 6 (s.elementForm 6 [va, vb] vt ra fun e => s.elem va e ||| s.elem vb e)

/-- VOR, `Va | Vb`, length form (R97). -/
def execVorLen (p : Pred) (vt va vb : VReg) (ra : GReg) (s : State) : Out :=
  s.predicated p 6 (s.lengthForm 6 [va, vb] vt ra fun e => s.elem va e ||| s.elem vb e)

/-- VSCALE, `Va * x[Rb]`, element form: the scalar is read in the elements' type (R98, D37). -/
def execVscale (p : Pred) (t : BitVec 3) (vt va : VReg) (rb ra : GReg) (s : State) : Out :=
  s.predicated p 6 (withType t fun ty => s.elementForm 6 [va] vt ra fun e => opMul ty (s.elem va e) (s.gpr rb))

/-- VSCALE, `Va * x[Rb]`, length form: the scalar is read in the elements' type (R99, D37). -/
def execVscaleLen (p : Pred) (t : BitVec 3) (vt va : VReg) (rb ra : GReg) (s : State) : Out :=
  s.predicated p 6 (withType t fun ty => s.lengthForm 6 [va] vt ra fun e => opMul ty (s.elem va e) (s.gpr rb))

/-- VSUB, `Va - Vb`, element form (R100). -/
def execVsub (p : Pred) (t : BitVec 3) (vt va vb : VReg) (ra : GReg) (s : State) : Out :=
  s.predicated p 6 (withType t fun ty => s.elementForm 6 [va, vb] vt ra fun e => opSub ty (s.elem va e) (s.elem vb e))

/-- VSUB, `Va - Vb`, length form (R101). -/
def execVsubLen (p : Pred) (t : BitVec 3) (vt va vb : VReg) (ra : GReg) (s : State) : Out :=
  s.predicated p 6 (withType t fun ty => s.lengthForm 6 [va, vb] vt ra fun e => opSub ty (s.elem va e) (s.elem vb e))

end Sys2Proof.Machine
end

