-- ==== Sys2Proof/Machine/LoadStore.lean ====
section
/-! DEFINITION. Vector element load and store, 6 bytes, in the order of 42_vector_loadstore.md. The element index is tested
before any access (R141); an instruction that raises writes nothing (R172). -/

namespace Sys2Proof.Machine

/-- The end of a load: `v[vt][e] <- MemRead(addr, 8)` (R142, R143). -/
def State.loadElem (s : State) (seg : BitVec 3) (ea : Word) (vt : VReg) (e : ElemIx) : Out :=
  s.accessAt .load seg ea fun addr => (s.setElem vt e (s.mem.read64 addr.toNat)).advance 6

/-- The end of a store: `MemWrite(addr, 8, v[vs][e])`; bytes of the program text are not stored to (R38, R144, R145). -/
def State.storeElem (s : State) (seg : BitVec 3) (ea : Word) (vs : VReg) (e : ElemIx) : Out :=
  s.accessAt .store seg ea fun addr =>
    if s.overlapsText addr.toNat then .refused .storeToProgramText
    else ({ s with mem := s.mem.write64 addr.toNat (s.elem vs e) } : State).advance 6

/-- VLD: register indirect with displacement; `x[rb]` is the element index (R142, C11). -/
def execVld (p : Pred) (seg : BitVec 3) (disp : BitVec 11) (vt : VReg) (rb ra : GReg) (s : State) : Out :=
  s.predicated p 6 (s.withVRegs [vt] (s.withIndex rb fun e => s.loadElem seg (s.eaDisp disp ra) vt e))

/-- VLDX: scaled indexed; `x[rc]` is the element index; bits 44:42 must be 0 (R143, R63). -/
def execVldx (p : Pred) (seg unused : BitVec 3) (sc : BitVec 2) (vt : VReg) (rc rb ra : GReg) (s : State) : Out :=
  s.predicated p 6 (if unused ≠ 0 then .refused .unusedBitsSet
    else s.withVRegs [vt] (s.withIndex rc fun e => s.loadElem seg (s.eaIndexed sc rb ra) vt e))

/-- VST: register indirect with displacement; `x[rb]` is the element index (R144). -/
def execVst (p : Pred) (seg : BitVec 3) (disp : BitVec 11) (vs : VReg) (rb ra : GReg) (s : State) : Out :=
  s.predicated p 6 (s.withVRegs [vs] (s.withIndex rb fun e => s.storeElem seg (s.eaDisp disp ra) vs e))

/-- VSTX: scaled indexed; `x[rc]` is the element index; bits 44:42 must be 0 (R145, R63). -/
def execVstx (p : Pred) (seg unused : BitVec 3) (sc : BitVec 2) (vs : VReg) (rc rb ra : GReg) (s : State) : Out :=
  s.predicated p 6 (if unused ≠ 0 then .refused .unusedBitsSet
    else s.withVRegs [vs] (s.withIndex rc fun e => s.storeElem seg (s.eaIndexed sc rb ra) vs e))

end Sys2Proof.Machine
end

