-- ==== Sys2Proof/Machine/Mac.lean ====
section
/-! DEFINITION. Vector multiply accumulate, opcode 5Ah, 7 bytes (43_vector_mac_5Ah.md). -/

namespace Sys2Proof.Machine

/-- VMAC: `VMAC_O(O3)` chooses the element form (R163) or the length form (R164), or is reserved and refused (R162, U13). -/
def execVmac (p : Pred) (o : BitVec 3) (sn : BitVec 4) (t : BitVec 3) (vt va vb vc : VReg) (ra : GReg) (s : State) : Out :=
  s.predicated p 7
    (match s.params.vmacO[o.toNat]'o.isLt with
    | .reserved => .refused (.vmacFormReserved o)
    | .element => withType t fun ty => s.elementForm 7 [va, vb, vc] vt ra fun e =>
        opMac sn ty (s.elem va e) (s.elem vb e) (s.elem vc e)
    | .length => withType t fun ty => s.lengthForm 7 [va, vb, vc] vt ra fun e =>
        opMac sn ty (s.elem va e) (s.elem vb e) (s.elem vc e))

end Sys2Proof.Machine
end

