-- ==== Sys2Proof/Machine/Misc56.lean ====
section
/-! DEFINITION. Element transfer, shift, conversion and Boolean instructions, opcode 56h, 5 bytes, in the order of
41_vector_misc_56h.md. All source elements are read from the state before the instruction (R122). -/

namespace Sys2Proof.Machine

/-- VBITS2V: element `e` of `vt` is bit `e` of `x[rb]`, as 0 or 1 (R123). -/
def execVbits2v (p : Pred) (vt : VReg) (rb ra : GReg) (s : State) : Out :=
  s.predicated p 5 (s.lengthForm 5 [] vt ra fun e => boolElem (s.gpr rb) e)

/-- VEINS: `v[vt][x[ra]] <- x[rb]`, all 64 bits (R124). -/
def execVeins (p : Pred) (vt : VReg) (rb ra : GReg) (s : State) : Out :=
  s.predicated p 5 (s.elementForm 5 [] vt ra fun _ => s.gpr rb)

/-- VEX: `x[rt] <- v[va][x[ra]]`, all 64 bits; the index is read before the write (R125). -/
def execVex (p : Pred) (rt : GReg) (va : VReg) (ra : GReg) (s : State) : Out :=
  s.predicated p 5 (s.withVRegs [va] (s.withIndex ra fun e => (s.setGpr rt (s.elem va e)).advance 5))

/-- VFLT2INT (R126). -/
def execVflt2int (p : Pred) (vt va : VReg) (ra : GReg) (s : State) : Out :=
  s.predicated p 5 (s.lengthForm 5 [va] vt ra fun e => Config.cvtF2I (s.elem va e))

/-- VINT2FLT (R127). -/
def execVint2flt (p : Pred) (vt va : VReg) (ra : GReg) (s : State) : Out :=
  s.predicated p 5 (s.lengthForm 5 [va] vt ra fun e => Config.cvtI2F (s.elem va e))

/-- VSHL: elements 0 to `n - 1` move up by one place and element 0 becomes 0, so `n + 1` elements are written; the length `VL_MAX`
is refused (R128, D36, U14). -/
def execVshl (p : Pred) (vt va : VReg) (ra : GReg) (s : State) : Out :=
  s.predicated p 5 (s.withVRegs [vt, va] (s.withLength ra fun n =>
    if n = s.vlMax then .refused .shiftPastLastElement
    else (s.setElems vt (n + 1) fun e => if e.val = 0 then 0 else s.elem va (elemBelow e)).advance 5))

/-- VSHR: elements 1 to `n - 1` move down by one place and element `n - 1` becomes 0; the length 0 is refused (R129, C13, D36,
U15). -/
def execVshr (p : Pred) (vt va : VReg) (ra : GReg) (s : State) : Out :=
  s.predicated p 5 (s.withVRegs [vt, va] (s.withLength ra fun n =>
    if n = 0 then .refused .shiftOfNoElements
    else (s.setElems vt n fun e => if e.val + 1 = n then 0 else s.elem va (elemAbove e)).advance 5))

/-- V2BITS: bit `e` of `x[rt]` is the low bit of element `e` of `va`; the bits at and above the length follow `V2BITS_UPPER`
(R130). -/
def execV2bits (p : Pred) (rt : GReg) (va : VReg) (ra : GReg) (s : State) : Out :=
  s.predicated p 5 (s.withVRegs [va] (s.withLength ra fun n =>
    ((s.v2bitsUpper rt).2.setGpr rt (s.gatherBits va n (s.v2bitsUpper rt).1)).advance 5))

end Sys2Proof.Machine
end

