-- ==== Sys2Proof/Machine/Dispatch.lean ====
section
/-! DEFINITION. The meaning of every instruction: one arm for each constructor of Instr. -/

namespace Sys2Proof.Machine

def exec (i : Instr) (s : State) : Host.Outcome State Fault Refusal :=
  match i with
  | .vadd p t vt va vb ra => Sys2Proof.Machine.execVadd p t vt va vb ra s
  | .vaddLen p t vt va vb ra => Sys2Proof.Machine.execVaddLen p t vt va vb ra s
  | .vand p vt va vb ra => Sys2Proof.Machine.execVand p vt va vb ra s
  | .vandLen p vt va vb ra => Sys2Proof.Machine.execVandLen p vt va vb ra s
  | .vbits2v p vt rb ra => Sys2Proof.Machine.execVbits2v p vt rb ra s
  | .vcmp p t vt va vb ra => Sys2Proof.Machine.execVcmp p t vt va vb ra s
  | .vcmpLen p t vt va vb ra => Sys2Proof.Machine.execVcmpLen p t vt va vb ra s
  | .veins p vt rb ra => Sys2Proof.Machine.execVeins p vt rb ra s
  | .veor p vt va vb ra => Sys2Proof.Machine.execVeor p vt va vb ra s
  | .veorLen p vt va vb ra => Sys2Proof.Machine.execVeorLen p vt va vb ra s
  | .vdiv p t vt va vb ra => Sys2Proof.Machine.execVdiv p t vt va vb ra s
  | .vdivLen p t vt va vb ra => Sys2Proof.Machine.execVdivLen p t vt va vb ra s
  | .vex p rt va ra => Sys2Proof.Machine.execVex p rt va ra s
  | .vflt2int p vt va ra => Sys2Proof.Machine.execVflt2int p vt va ra s
  | .vint2flt p vt va ra => Sys2Proof.Machine.execVint2flt p vt va ra s
  | .vld p seg disp vt rb ra => Sys2Proof.Machine.execVld p seg disp vt rb ra s
  | .vldx p seg unused sc vt rc rb ra => Sys2Proof.Machine.execVldx p seg unused sc vt rc rb ra s
  | .vmac p o sn t vt va vb vc ra => Sys2Proof.Machine.execVmac p o sn t vt va vb vc ra s
  | .vmul p t vt va vb ra => Sys2Proof.Machine.execVmul p t vt va vb ra s
  | .vmulLen p t vt va vb ra => Sys2Proof.Machine.execVmulLen p t vt va vb ra s
  | .vor p vt va vb ra => Sys2Proof.Machine.execVor p vt va vb ra s
  | .vorLen p vt va vb ra => Sys2Proof.Machine.execVorLen p vt va vb ra s
  | .vscale p t vt va rb ra => Sys2Proof.Machine.execVscale p t vt va rb ra s
  | .vscaleLen p t vt va rb ra => Sys2Proof.Machine.execVscaleLen p t vt va rb ra s
  | .vshl p vt va ra => Sys2Proof.Machine.execVshl p vt va ra s
  | .vshr p vt va ra => Sys2Proof.Machine.execVshr p vt va ra s
  | .vst p seg disp vs rb ra => Sys2Proof.Machine.execVst p seg disp vs rb ra s
  | .vstx p seg unused sc vs rc rb ra => Sys2Proof.Machine.execVstx p seg unused sc vs rc rb ra s
  | .vsub p t vt va vb ra => Sys2Proof.Machine.execVsub p t vt va vb ra s
  | .vsubLen p t vt va vb ra => Sys2Proof.Machine.execVsubLen p t vt va vb ra s
  | .v2bits p rt va ra => Sys2Proof.Machine.execV2bits p rt va ra s

end Sys2Proof.Machine
end

