-- ==== Sys2Proof/Machine/Step.lean ====
section
/-! DEFINITION. One step of the machine: fetch (R38), decode, execute; and the loading of an instruction where the step
fetches. -/

namespace Sys2Proof.Machine

/-- Fetches the instruction at the pc, decodes it and executes it; a fetch or a decoding that fails refuses by name. -/
def step (s : State) : Host.Outcome State Fault Refusal :=
  match s.fetch with
  | .error r => .refused r
  | .ok bytes =>
    match decode bytes with
    | .error e => .refused (.undecodable e)
    | .ok (i, _) => exec i s

/-- `s` with the instruction of an opcode-table word, padded with zeros to 7 bytes, as its program text at the pc (log 11). -/
def State.withFetchWord (s : State) (nbits w : Nat) : State := s.loadText (tableBytes nbits w)

end Sys2Proof.Machine
end

