-- ==== Sys2Proof/Safety.lean ====
section
/-! DEFINITION. The invariant of the machine and the vocabulary that claims use: when an instruction executes, what it writes
and what it leaves alone. -/

namespace Sys2Proof.Machine

/-- The invariant of the machine: memory is in canonical form (log 3). -/
def State.Inv (s : State) : Prop := s.mem.wf

/-- The predicate lets the instruction execute (R19), and the pc has room to advance over it (R18). -/
def State.Runs (s : State) (i : Instr) : Prop := s.predHolds i.pred = true ∧ s.pc.toNat + i.ilen < 2 ^ 64

/-- The implementation has every vector register that the instruction names (R13). -/
def State.HasVRegsOf (s : State) (i : Instr) : Prop := ∀ r ∈ i.vregs, s.hasVReg r = true

/-- The pc after an instruction (R18). -/
def State.pcAfter (s : State) (i : Instr) : Word := s.pc + BitVec.ofNat 64 i.ilen

/-- The frame of an instruction that writes vector elements: the pc advances, elements may change, and nothing else does. -/
def WroteElements (i : Instr) (s t : State) : Prop := t = { s with pc := s.pcAfter i, v := t.v }

/-- The frame of an instruction that writes a general purpose register: the pc advances, registers may change, and nothing
else does. -/
def WroteGprs (i : Instr) (s t : State) : Prop := t = { s with pc := s.pcAfter i, x := t.x }

/-- The frame of a store: the pc advances, memory may change, and nothing else does. -/
def WroteMemory (i : Instr) (s t : State) : Prop := t = { s with pc := s.pcAfter i, mem := t.mem }

/-- `i` is an element form that executes (R80): with an index in `ra` below `VL_MAX`, it answers a next state in which that
element of `vt` is `f` of the state before, and every other element, register and byte is as before. -/
def ElementFormWrites (i : Instr) (vt : VReg) (ra : GReg) (f : State → ElemIx → Word) : Prop :=
  ∀ (s : State) (e : ElemIx), s.Runs i → s.HasVRegsOf i → (s.gpr ra).toNat = e.val → e.val < s.vlMax →
    ∃ t, exec i s = .next t ∧ WroteElements i s t ∧
      ∀ r k, t.elem r k = if r = vt ∧ k = e then f s e else s.elem r k

/-- `i` is a length form that executes (R81): with a length in `ra` of at most `VL_MAX`, it answers a next state in which the
elements of `vt` below that length are `f` of the state before, and every other element, register and byte is as before. -/
def LengthFormWrites (i : Instr) (vt : VReg) (ra : GReg) (f : State → ElemIx → Word) : Prop :=
  ∀ s : State, s.Runs i → s.HasVRegsOf i → (s.gpr ra).toNat ≤ s.vlMax →
    ∃ t, exec i s = .next t ∧ WroteElements i s t ∧
      ∀ r k, t.elem r k = if r = vt ∧ k.val < (s.gpr ra).toNat then f s k else s.elem r k

/-- `i` executes and its index register holds an index at or above `VL_MAX`: it is refused (U7). -/
def IndexRefused (i : Instr) (ra : GReg) : Prop :=
  ∀ s : State, s.predHolds i.pred = true → s.HasVRegsOf i → s.vlMax ≤ (s.gpr ra).toNat →
    exec i s = .refused .elementIndexOutOfRange

/-- `i` executes and its length register holds a length above `VL_MAX`: it is refused (U8). -/
def LengthRefused (i : Instr) (ra : GReg) : Prop :=
  ∀ s : State, s.predHolds i.pred = true → s.HasVRegsOf i → s.vlMax < (s.gpr ra).toNat →
    exec i s = .refused .vectorLengthOutOfRange

/-- A load or store of the offset `ea` in the segment `seg` reaches memory at `addr`: the alignment test passes (R34),
`Translate` answers `addr` (R36) and `MemFault` answers nothing (R171). -/
def State.Reaches (s : State) (kind : AccessKind) (seg : BitVec 3) (ea addr : Word) : Prop :=
  (s.params.misaligned = .refuse → ea.toNat % 8 = 0) ∧ s.translate seg ea kind = .ok addr ∧ s.memFault kind addr = none

/-- The element operations of a length form, one after the other in the order of a list of indexes, each on the state that the
one before leaves, as the core's units may process them (R4, R102). -/
def State.eachElement (s : State) (vt : VReg) (f : State → ElemIx → Word) (l : List ElemIx) : State :=
  l.foldl (fun s e => s.setElem vt e (f s e)) s

/-- The predicate byte of an instruction's word (R51): `Pn4` above `Pc4`. -/
def PredByte (i : Instr) : Prop := (encodeWord i).extractLsb' 4 4 = i.pred.pn ∧ (encodeWord i).extractLsb' 0 4 = i.pred.pc

/-- The fields of a word of format V40 but `Func6` (R52): 5 bytes, nothing above bit 39. -/
def FieldsV40 (i : Instr) (a b c : BitVec 6) : Prop :=
  i.ilen = 5 ∧ (encodeWord i).extractLsb' 40 16 = 0#16 ∧ (encodeWord i).extractLsb' 28 6 = a ∧
    (encodeWord i).extractLsb' 22 6 = b ∧ (encodeWord i).extractLsb' 16 6 = c ∧ (encodeWord i).extractLsb' 8 8 = 0x56#8 ∧
    PredByte i

/-- The fields of a word of format V48 (R53): 6 bytes, nothing above bit 47. -/
def FieldsV48 (i : Instr) (func : BitVec 5) (t : BitVec 3) (a b c d : BitVec 6) : Prop :=
  i.ilen = 6 ∧ (encodeWord i).extractLsb' 48 8 = 0#8 ∧ (encodeWord i).extractLsb' 43 5 = func ∧
    (encodeWord i).extractLsb' 40 3 = t ∧ (encodeWord i).extractLsb' 34 6 = a ∧ (encodeWord i).extractLsb' 28 6 = b ∧
    (encodeWord i).extractLsb' 22 6 = c ∧ (encodeWord i).extractLsb' 16 6 = d ∧ (encodeWord i).extractLsb' 8 8 = 0x57#8 ∧
    PredByte i

/-- The fields of a word of format VLS but the opcode (R54). -/
def FieldsVls (i : Instr) (seg : BitVec 3) (disp : BitVec 11) (a b c : BitVec 6) : Prop :=
  i.ilen = 6 ∧ (encodeWord i).extractLsb' 48 8 = 0#8 ∧ (encodeWord i).extractLsb' 45 3 = seg ∧
    (encodeWord i).extractLsb' 34 11 = disp ∧ (encodeWord i).extractLsb' 28 6 = a ∧
    (encodeWord i).extractLsb' 22 6 = b ∧ (encodeWord i).extractLsb' 16 6 = c ∧ PredByte i

/-- The fields of a word of format VLX but the opcode (R55). -/
def FieldsVlx (i : Instr) (seg unused : BitVec 3) (sc : BitVec 2) (a b c d : BitVec 6) : Prop :=
  i.ilen = 6 ∧ (encodeWord i).extractLsb' 48 8 = 0#8 ∧ (encodeWord i).extractLsb' 45 3 = seg ∧
    (encodeWord i).extractLsb' 42 3 = unused ∧ (encodeWord i).extractLsb' 40 2 = sc ∧
    (encodeWord i).extractLsb' 34 6 = a ∧ (encodeWord i).extractLsb' 28 6 = b ∧ (encodeWord i).extractLsb' 22 6 = c ∧
    (encodeWord i).extractLsb' 16 6 = d ∧ PredByte i

end Sys2Proof.Machine
end

