-- ==== Sys2Proof/Certificates/Slice0/Obligations.lean ====
section
/-! DEFINITION. The statements for the provers, from the numbered rules of spec/. -/

open Sys2Proof Sys2Proof.Machine

/-! ## Encoding -/

/-- Decoding an instruction's bytes gives the instruction and the bytes after it, for every instruction and every value of
every field (30_encoding.md sections 3, 4, 9). -/
def Obligations.EncodeThenDecode : Prop :=
  ∀ (i : Instr) (rest : List Byte), decode (encode i ++ rest) = .ok (i, rest)

/-- Bytes that decode are the encoding of the instruction they decode to: no bit is dropped, each word has one meaning. -/
def Obligations.DecodedBytesAreTheEncoding : Prop :=
  ∀ (bytes : List Byte) (i : Instr) (rest : List Byte), decode bytes = .ok (i, rest) → bytes = encode i ++ rest

/-- Words of the spec's examples, written out in bytes, decode to the instructions they stand for (95_test_vectors.md). -/
def Obligations.ExampleWordsDecode : Prop :=
  decodeTableWord 48 0x000C20455701 = some (.vadd ⟨0, 1⟩ 0 3 1 2 5) ∧
  decodeTableWord 48 0xA80C11C55701 = some (.vscaleLen ⟨0, 1⟩ 0 3 1 7 5) ∧
  decodeTableWord 40 0x0431C55601 = some (.veins ⟨0, 1⟩ 3 7 5) ∧
  decodeTableWord 48 0x004031469901 = some (.vst ⟨0, 1⟩ 0 16 3 5 6) ∧
  decodeTableWord 48 0x030C51C6B901 = some (.vldx ⟨0, 1⟩ 0 0 3 3 5 7 6) ∧
  decodeTableWord 56 0x08040C20455A01 = some (.vmac ⟨0, 1⟩ 0 4 0 4 1 2 3 5)

/-- R51: the low 16 bits of every instruction. -/
def Obligations.LowSixteenBitsOfEveryWord : Prop :=
  ∀ i : Instr, (encodeWord i).extractLsb' 0 4 = i.pred.pc ∧ (encodeWord i).extractLsb' 4 4 = i.pred.pn ∧
    (encodeWord i).extractLsb' 8 8 = i.opcode

/-- Format V40 and its function codes (30_encoding.md sections 3 and 4). Seven codes are those of the source's cells; that the code
of VBITS2V, which the source does not give, is none of theirs is the spec's own decision D18 (log 12). -/
def Obligations.FormatV40Fields : Prop :=
  ∀ (p : Pred) (a b c : BitVec 6),
    FieldsV40 (.vex p a b c) a b c ∧ (encodeWord (.vex p a b c)).extractLsb' 34 6 = 0#6 ∧
    FieldsV40 (.veins p a b c) a b c ∧ (encodeWord (.veins p a b c)).extractLsb' 34 6 = 1#6 ∧
    FieldsV40 (.vshl p a b c) a b c ∧ (encodeWord (.vshl p a b c)).extractLsb' 34 6 = 2#6 ∧
    FieldsV40 (.vshr p a b c) a b c ∧ (encodeWord (.vshr p a b c)).extractLsb' 34 6 = 3#6 ∧
    FieldsV40 (.vflt2int p a b c) a b c ∧ (encodeWord (.vflt2int p a b c)).extractLsb' 34 6 = 4#6 ∧
    FieldsV40 (.vint2flt p a b c) a b c ∧ (encodeWord (.vint2flt p a b c)).extractLsb' 34 6 = 5#6 ∧
    FieldsV40 (.v2bits p a b c) a b c ∧ (encodeWord (.v2bits p a b c)).extractLsb' 34 6 = 6#6 ∧
    FieldsV40 (.vbits2v p a b c) a b c ∧ 6 < ((encodeWord (.vbits2v p a b c)).extractLsb' 34 6).toNat

/-- R53: format V48. `Vb6` is above `Va6`; in VSCALE the vector source is above the scalar; the logical instructions have the
constant 0 in bits 42:40; bit 47 is 1 in the length forms. -/
def Obligations.FormatV48Fields : Prop :=
  ∀ (p : Pred) (t : BitVec 3) (vt va vb ra : BitVec 6),
    FieldsV48 (.vadd p t vt va vb ra) 0b00000 t vt vb va ra ∧ FieldsV48 (.vaddLen p t vt va vb ra) 0b10000 t vt vb va ra ∧
    FieldsV48 (.vsub p t vt va vb ra) 0b00001 t vt vb va ra ∧ FieldsV48 (.vsubLen p t vt va vb ra) 0b10001 t vt vb va ra ∧
    FieldsV48 (.vmul p t vt va vb ra) 0b00010 t vt vb va ra ∧ FieldsV48 (.vmulLen p t vt va vb ra) 0b10010 t vt vb va ra ∧
    FieldsV48 (.vdiv p t vt va vb ra) 0b00011 t vt vb va ra ∧ FieldsV48 (.vdivLen p t vt va vb ra) 0b10011 t vt vb va ra ∧
    FieldsV48 (.vscale p t vt va vb ra) 0b00101 t vt va vb ra ∧
    FieldsV48 (.vscaleLen p t vt va vb ra) 0b10101 t vt va vb ra ∧
    FieldsV48 (.vcmp p t vt va vb ra) 0b00110 t vt vb va ra ∧ FieldsV48 (.vcmpLen p t vt va vb ra) 0b10110 t vt vb va ra ∧
    FieldsV48 (.vand p vt va vb ra) 0b01000 0 vt vb va ra ∧ FieldsV48 (.vandLen p vt va vb ra) 0b11000 0 vt vb va ra ∧
    FieldsV48 (.vor p vt va vb ra) 0b01001 0 vt vb va ra ∧ FieldsV48 (.vorLen p vt va vb ra) 0b11001 0 vt vb va ra ∧
    FieldsV48 (.veor p vt va vb ra) 0b01010 0 vt vb va ra ∧ FieldsV48 (.veorLen p vt va vb ra) 0b11010 0 vt vb va ra

/-- R54: format VLS; VLD has the opcode 89h. -/
def Obligations.FormatVlsFields : Prop :=
  ∀ (p : Pred) (seg : BitVec 3) (disp : BitVec 11) (v rb ra : BitVec 6),
    FieldsVls (.vld p seg disp v rb ra) seg disp v rb ra ∧ FieldsVls (.vst p seg disp v rb ra) seg disp v rb ra ∧
    (encodeWord (.vld p seg disp v rb ra)).extractLsb' 8 8 = 0x89#8 ∧
    (encodeWord (.vst p seg disp v rb ra)).extractLsb' 8 8 = opcVst

/-- R55: format VLX; VLDX has the opcode B9h. -/
def Obligations.FormatVlxFields : Prop :=
  ∀ (p : Pred) (seg unused : BitVec 3) (sc : BitVec 2) (v rc rb ra : BitVec 6),
    FieldsVlx (.vldx p seg unused sc v rc rb ra) seg unused sc v rc rb ra ∧
    FieldsVlx (.vstx p seg unused sc v rc rb ra) seg unused sc v rc rb ra ∧
    (encodeWord (.vldx p seg unused sc v rc rb ra)).extractLsb' 8 8 = 0xB9#8 ∧
    (encodeWord (.vstx p seg unused sc v rc rb ra)).extractLsb' 8 8 = opcVstx

/-- R56: format VM56, VMAC. -/
def Obligations.FormatVm56Fields : Prop :=
  ∀ (p : Pred) (o : BitVec 3) (sn : BitVec 4) (t : BitVec 3) (vt va vb vc ra : BitVec 6) (w : BitVec 56),
    encodeWord (.vmac p o sn t vt va vb vc ra) = w →
    (Instr.vmac p o sn t vt va vb vc ra).ilen = 7 ∧ w.extractLsb' 53 3 = o ∧ w.extractLsb' 49 4 = sn ∧
    w.extractLsb' 46 3 = t ∧ w.extractLsb' 40 6 = vt ∧ w.extractLsb' 34 6 = vc ∧ w.extractLsb' 28 6 = vb ∧
    w.extractLsb' 22 6 = va ∧ w.extractLsb' 16 6 = ra ∧ w.extractLsb' 8 8 = 0x5A#8 ∧ w.extractLsb' 4 4 = p.pn ∧
    w.extractLsb' 0 4 = p.pc

/-- Encodings that the spec does not assign decode to no instruction, and the decoder says why (30_encoding.md sections 2, 4 and 7;
the code 07h and the opcodes 99h and C9h are provisional, log 12). -/
def Obligations.UnassignedEncodingsRefused : Prop :=
  ∀ w : BitVec 56,
    (¬ w.extractLsb' 8 8 ∈ [0x56#8, 0x57#8, 0x5A#8, 0x89#8, 0xB9#8, 0x99#8, 0xC9#8] →
      decodeWord w = .error (.unassignedOpcode (w.extractLsb' 8 8))) ∧
    (w.extractLsb' 8 8 = 0x56#8 → 7 < (w.extractLsb' 34 6).toNat →
      decodeWord w = .error (.unassignedFunc6 (w.extractLsb' 34 6))) ∧
    (w.extractLsb' 8 8 = 0x57#8 →
      w.extractLsb' 43 5 ∈ [0x04#5, 0x07#5, 0x0B#5, 0x0C#5, 0x0D#5, 0x0E#5, 0x0F#5, 0x14#5, 0x17#5, 0x1B#5, 0x1C#5,
        0x1D#5, 0x1E#5, 0x1F#5] →
      decodeWord w = .error (.unassignedFunc5 (w.extractLsb' 43 5))) ∧
    (w.extractLsb' 8 8 = 0x57#8 → w.extractLsb' 43 5 ∈ [0x08#5, 0x09#5, 0x0A#5, 0x18#5, 0x19#5, 0x1A#5] →
      w.extractLsb' 40 3 ≠ 0#3 →
      decodeWord w = .error (.logicalTypeNotZero (w.extractLsb' 43 5) (w.extractLsb' 40 3)))

/-- The second byte alone gives an instruction's length (30_encoding.md section 2). -/
def Obligations.OpcodeByteGivesLength : Prop :=
  ∀ (bytes : List Byte) (i : Instr) (rest : List Byte), decode bytes = .ok (i, rest) →
    bytes.length = i.ilen + rest.length ∧
    ∃ opc, bytes[1]? = some opc ∧
      i.ilen = (if opc = 0x56#8 then 5 else if opc = 0x5A#8 then 7 else 6)

/-! ## The step and the whole machine -/

/-- When the bytes of an instruction stand at the pc inside the program text, the step is that instruction's exec, with
nothing around it (20_memory.md section 5). That they stand in memory, at the pc as address, in a range that is the text, is
the model's choice (log 10). -/
def Obligations.StepRunsTheInstructionAtThePc : Prop :=
  ∀ (s : State) (i : Instr),
    (∀ k < i.ilen, s.inText (s.pc.toNat + k) = true ∧ some (s.mem.read (s.pc.toNat + k)) = (encode i)[k]?) →
    step s = exec i s

/-- Where the step itself refuses: a pc just past the program text, the end of a run; a fetch of a byte outside the text; and bytes
that are no instruction, by their opcode byte or by the word they make, with the decoder's reason (20_memory.md section 5,
30_encoding.md sections 2 and 7, 70_reset_and_hazards.md section 5). Where the text stands, what ends a run and the names are the
model's choice (log 10). -/
def Obligations.StepRefusesWhatIsNoInstruction : Prop :=
  ∀ s : State,
    let opc := s.mem.read (s.pc.toNat + 1)
    let bytes := fun n => (List.range n).map fun k => s.mem.read (s.pc.toNat + k)
    (s.pc.toNat = s.textBase.toNat + s.textSize → step s = .refused .endOfRun) ∧
    (s.pc.toNat ≠ s.textBase.toNat + s.textSize → (∃ k < 2, s.inText (s.pc.toNat + k) = false) →
      step s = .refused .fetchOutsideText) ∧
    ((∀ k < 2, s.inText (s.pc.toNat + k) = true) →
      (¬ opc ∈ [0x56#8, 0x57#8, 0x5A#8, 0x89#8, 0xB9#8, 0x99#8, 0xC9#8] →
        step s = .refused (.undecodable (.unassignedOpcode opc))) ∧
      ∀ n, instrLength opc = some n →
        ((∃ k < n, s.inText (s.pc.toNat + k) = false) → step s = .refused .fetchOutsideText) ∧
        ((∀ k < n, s.inText (s.pc.toNat + k) = true) → ∀ e, decodeWord (wordOfBytes (bytes n)) = .error e →
          step s = .refused (.undecodable e)))

/-- Every step keeps memory in canonical form, from every state that has it. -/
def Obligations.StepKeepsInvariant : Prop := ∀ s t : State, s.Inv → step s = .next t → t.Inv

/-- The invariant holds at reset. -/
def Obligations.InvariantAtReset : Prop := State.reset.Inv

/-- The program text is fixed for a run: no step moves it or changes a byte of it (20_memory.md section 5). -/
def Obligations.StepKeepsProgramText : Prop :=
  ∀ s t : State, step s = .next t →
    t.textBase = s.textBase ∧ t.textSize = s.textSize ∧ ∀ a, s.inText a = true → t.mem.read a = s.mem.read a

/-- R20: no instruction writes a predicate register (there is no other condition code or flag in State), and VCMP writes
-1, 0 or +1 into the elements it writes. -/
def Obligations.NoInstructionWritesPredicates : Prop :=
  ∀ (i : Instr) (s t : State), exec i s = .next t → t.pred = s.pred ∧
    (s.predHolds i.pred = true → ∀ (p : Pred) (ty : BitVec 3) (vt va vb : VReg) (ra : GReg) (k : ElemIx),
      (i = .vcmp p ty vt va vb ra ∧ k.val = (s.gpr ra).toNat ∨ i = .vcmpLen p ty vt va vb ra ∧ k.val < (s.gpr ra).toNat) →
      t.elem vt k = 0xFFFFFFFFFFFFFFFF ∨ t.elem vt k = 0 ∨ t.elem vt k = 1)

/-- No instruction writes the translation state, the platform's answers, the parameters or the place of the program text
(10_state.md section 5; the parameters are the model's own fields, log 5). -/
def Obligations.NoInstructionWritesOpaqueState : Prop :=
  ∀ (i : Instr) (s t : State), exec i s = .next t →
    t.xlate = s.xlate ∧ t.access = s.access ∧ t.params = s.params ∧ t.textBase = s.textBase ∧ t.textSize = s.textSize

/-- Every instruction that completes, executed or predicated off, advances the pc by its length and none branches or
wraps (10_state.md section 3, D8). -/
def Obligations.PcAdvancesByLength : Prop :=
  ∀ (i : Instr) (s t : State), exec i s = .next t → t.pc.toNat = s.pc.toNat + i.ilen

/-- An instruction whose predicate does not hold writes nothing, raises nothing and advances the pc; at the top of the address
space it is refused (10_state.md sections 3, 4; D6, D8). -/
def Obligations.PredicateFalseOnlyAdvancesPc : Prop :=
  ∀ (i : Instr) (s : State), s.predHolds i.pred = false →
    (s.pc.toNat + i.ilen < 2 ^ 64 → exec i s = .next { s with pc := s.pcAfter i }) ∧
    (2 ^ 64 ≤ s.pc.toNat + i.ilen → exec i s = .refused .pcPastTop)

/-- Only the loads and stores raise, and what they raise carries the address of the instruction (60_exceptions.md section 1;
D24, log 9). -/
def Obligations.OnlyLoadsAndStoresRaise : Prop :=
  ∀ (i : Instr) (s : State) (f : Fault), exec i s = .fault f →
    (∃ e addr, f = .raised e s.pc addr) ∧
    ((∃ p seg disp vt rb ra, i = .vld p seg disp vt rb ra) ∨ (∃ p seg u sc vt rc rb ra, i = .vldx p seg u sc vt rc rb ra) ∨
      (∃ p seg disp vs rb ra, i = .vst p seg disp vs rb ra) ∨ ∃ p seg u sc vs rc rb ra, i = .vstx p seg u sc vs rc rb ra)

/-- VEX and V2BITS are the only instructions that write a general purpose register (10_state.md section 1). -/
def Obligations.OnlyVexAndV2bitsWriteGprs : Prop :=
  ∀ (i : Instr) (s t : State), exec i s = .next t →
    (∃ p rt va ra, i = .vex p rt va ra ∨ i = .v2bits p rt va ra) ∨ t.x = s.x

/-- VST and VSTX are the only instructions that write memory (10_state.md section 6). -/
def Obligations.OnlyStoresWriteMemory : Prop :=
  ∀ (i : Instr) (s t : State), exec i s = .next t →
    (∃ p seg disp vs rb ra, i = .vst p seg disp vs rb ra) ∨ (∃ p seg u sc vs rc rb ra, i = .vstx p seg u sc vs rc rb ra) ∨
      t.mem = s.mem

/-- An instruction that executes and names a vector register the implementation lacks answers no next state and no fault
(10_state.md section 2, U9). -/
def Obligations.MissingVectorRegisterRefused : Prop :=
  ∀ (i : Instr) (s : State) (r : VReg), s.predHolds i.pred = true → r ∈ i.vregs → s.hasVReg r = false →
    ∃ why, exec i s = .refused why

/-- Under `R0_IS_ZERO` register 0 reads as 0 and VEX to it writes nothing but the pc; otherwise it is an ordinary register
(10_state.md section 1, D5). -/
def Obligations.RegisterZero : Prop :=
  ∀ (s : State) (p : Pred) (va : VReg) (ra : GReg) (e : ElemIx), s.Runs (.vex p 0 va ra) → s.HasVRegsOf (.vex p 0 va ra) →
    (s.gpr ra).toNat = e.val → e.val < s.vlMax →
    (s.params.r0IsZero = true → s.gpr 0 = 0 ∧ exec (.vex p 0 va ra) s = .next { s with pc := s.pcAfter (.vex p 0 va ra) }) ∧
    (s.params.r0IsZero = false → ∃ t, exec (.vex p 0 va ra) s = .next t ∧ t.gpr 0 = s.elem va e)

/-- What reset leaves. The spec gives no reset value: all of it is the model's choice (logs 1, 2, 3, 4, 6, 7, 8, 10), so that at
reset nothing is hidden in a register, a byte of memory, a translation or the platform. -/
def Obligations.ResetState : Prop :=
  State.reset.pc = 0 ∧ (∀ i, State.reset.gpr i = 0) ∧ (∀ r e, State.reset.elem r e = 0) ∧
    (∀ a, State.reset.mem.read a = 0) ∧ (∀ seg ea kind, State.reset.translate seg ea kind = .ok ea) ∧
    (∀ kind addr, addr.toNat + 8 ≤ 2 ^ 64 → State.reset.memFault kind addr = none) ∧
    (∀ p : Pred, State.reset.predHolds p = true ↔ p = ⟨0, 1⟩) ∧ (∀ a, State.reset.inText a = false)

/-! ## Opcode 57h -/

/-- VADD, both forms: integer sums modulo 2^64 (the spec's own decision D13), and `FAdd` in the two floating-point types. -/
def Obligations.VaddAdds : Prop :=
  ∀ (p : Pred) (vt va vb : VReg) (ra : GReg),
    ElementFormWrites (.vadd p 0 vt va vb ra) vt ra (fun s e => s.elem va e + s.elem vb e) ∧
    ElementFormWrites (.vadd p 1 vt va vb ra) vt ra (fun s e => Config.fAdd .single (s.elem va e) (s.elem vb e)) ∧
    ElementFormWrites (.vadd p 2 vt va vb ra) vt ra (fun s e => Config.fAdd .double (s.elem va e) (s.elem vb e)) ∧
    LengthFormWrites (.vaddLen p 0 vt va vb ra) vt ra (fun s e => s.elem va e + s.elem vb e) ∧
    LengthFormWrites (.vaddLen p 1 vt va vb ra) vt ra (fun s e => Config.fAdd .single (s.elem va e) (s.elem vb e)) ∧
    LengthFormWrites (.vaddLen p 2 vt va vb ra) vt ra (fun s e => Config.fAdd .double (s.elem va e) (s.elem vb e))

/-- VSUB, both forms: `Va` is the minuend; integers modulo 2^64 (the spec's own decision D13). -/
def Obligations.VsubSubtracts : Prop :=
  ∀ (p : Pred) (vt va vb : VReg) (ra : GReg),
    ElementFormWrites (.vsub p 0 vt va vb ra) vt ra (fun s e => s.elem va e - s.elem vb e) ∧
    ElementFormWrites (.vsub p 1 vt va vb ra) vt ra (fun s e => Config.fSub .single (s.elem va e) (s.elem vb e)) ∧
    ElementFormWrites (.vsub p 2 vt va vb ra) vt ra (fun s e => Config.fSub .double (s.elem va e) (s.elem vb e)) ∧
    LengthFormWrites (.vsubLen p 0 vt va vb ra) vt ra (fun s e => s.elem va e - s.elem vb e) ∧
    LengthFormWrites (.vsubLen p 1 vt va vb ra) vt ra (fun s e => Config.fSub .single (s.elem va e) (s.elem vb e)) ∧
    LengthFormWrites (.vsubLen p 2 vt va vb ra) vt ra (fun s e => Config.fSub .double (s.elem va e) (s.elem vb e))

/-- VMUL, both forms: of the integer product the low 64 bits, the spec's own decision (D13; the widths, log 21). -/
def Obligations.VmulMultiplies : Prop :=
  ∀ (p : Pred) (vt va vb : VReg) (ra : GReg),
    ElementFormWrites (.vmul p 0 vt va vb ra) vt ra
      (fun s e => BitVec.ofNat 64 ((s.elem va e).toNat * (s.elem vb e).toNat)) ∧
    ElementFormWrites (.vmul p 1 vt va vb ra) vt ra (fun s e => Config.fMul .single (s.elem va e) (s.elem vb e)) ∧
    ElementFormWrites (.vmul p 2 vt va vb ra) vt ra (fun s e => Config.fMul .double (s.elem va e) (s.elem vb e)) ∧
    LengthFormWrites (.vmulLen p 0 vt va vb ra) vt ra
      (fun s e => BitVec.ofNat 64 ((s.elem va e).toNat * (s.elem vb e).toNat)) ∧
    LengthFormWrites (.vmulLen p 1 vt va vb ra) vt ra (fun s e => Config.fMul .single (s.elem va e) (s.elem vb e)) ∧
    LengthFormWrites (.vmulLen p 2 vt va vb ra) vt ra (fun s e => Config.fMul .double (s.elem va e) (s.elem vb e))

/-- VDIV, both forms: `Va` is the dividend. The integer quotient `iDiv` is that of the signed values, truncated toward zero (the
spec's provisional `IDiv`); in the two corners it is the free value of log 13, and the instruction still completes. -/
def Obligations.VdivDivides : Prop :=
  (∀ (p : Pred) (vt va vb : VReg) (ra : GReg),
    ElementFormWrites (.vdiv p 0 vt va vb ra) vt ra (fun s e => iDiv (s.elem va e) (s.elem vb e)) ∧
    ElementFormWrites (.vdiv p 1 vt va vb ra) vt ra (fun s e => Config.fDiv .single (s.elem va e) (s.elem vb e)) ∧
    ElementFormWrites (.vdiv p 2 vt va vb ra) vt ra (fun s e => Config.fDiv .double (s.elem va e) (s.elem vb e)) ∧
    LengthFormWrites (.vdivLen p 0 vt va vb ra) vt ra (fun s e => iDiv (s.elem va e) (s.elem vb e)) ∧
    LengthFormWrites (.vdivLen p 1 vt va vb ra) vt ra (fun s e => Config.fDiv .single (s.elem va e) (s.elem vb e)) ∧
    LengthFormWrites (.vdivLen p 2 vt va vb ra) vt ra (fun s e => Config.fDiv .double (s.elem va e) (s.elem vb e))) ∧
  (∀ a b : Word, b ≠ 0 → (a.toInt = -2 ^ 63 → b.toInt ≠ -1) → (iDiv a b).toInt = a.toInt.tdiv b.toInt) ∧
  ∀ a b : Word, b = 0 ∨ (a.toInt = -2 ^ 63 ∧ b.toInt = -1) → iDiv a b = Config.iDivCorner a b

/-- VSCALE, both forms: the scalar in `x[Rb]` is read in the elements' type, the spec's own decision (D37, log 27); of the integer
product the low 64 bits (D13, log 21). -/
def Obligations.VscaleScales : Prop :=
  ∀ (p : Pred) (vt va : VReg) (rb ra : GReg),
    ElementFormWrites (.vscale p 0 vt va rb ra) vt ra (fun s e => BitVec.ofNat 64 ((s.elem va e).toNat * (s.gpr rb).toNat)) ∧
    ElementFormWrites (.vscale p 1 vt va rb ra) vt ra (fun s e => Config.fMul .single (s.elem va e) (s.gpr rb)) ∧
    ElementFormWrites (.vscale p 2 vt va rb ra) vt ra (fun s e => Config.fMul .double (s.elem va e) (s.gpr rb)) ∧
    LengthFormWrites (.vscaleLen p 0 vt va rb ra) vt ra
      (fun s e => BitVec.ofNat 64 ((s.elem va e).toNat * (s.gpr rb).toNat)) ∧
    LengthFormWrites (.vscaleLen p 1 vt va rb ra) vt ra (fun s e => Config.fMul .single (s.elem va e) (s.gpr rb)) ∧
    LengthFormWrites (.vscaleLen p 2 vt va rb ra) vt ra (fun s e => Config.fMul .double (s.elem va e) (s.gpr rb))

/-- VCMP, both forms: -1, 0 or +1 by the signed order of integers, and by `FCmp` in the two floating-point types. The signed order
and which value says what are the spec's own decision (D14, log 25). -/
def Obligations.VcmpCompares : Prop :=
  ∀ (p : Pred) (vt va vb : VReg) (ra : GReg),
    let int : State → ElemIx → Word := fun s e =>
      if (s.elem va e).toInt < (s.elem vb e).toInt then BitVec.allOnes 64
      else if s.elem va e = s.elem vb e then 0 else 1
    let float : FloatType → State → ElemIx → Word := fun f s e =>
      match Config.fCmp f (s.elem va e) (s.elem vb e) with
      | .lt => BitVec.allOnes 64
      | .eq => 0
      | .gt => 1
    ElementFormWrites (.vcmp p 0 vt va vb ra) vt ra int ∧
    ElementFormWrites (.vcmp p 1 vt va vb ra) vt ra (float .single) ∧
    ElementFormWrites (.vcmp p 2 vt va vb ra) vt ra (float .double) ∧
    LengthFormWrites (.vcmpLen p 0 vt va vb ra) vt ra int ∧
    LengthFormWrites (.vcmpLen p 1 vt va vb ra) vt ra (float .single) ∧
    LengthFormWrites (.vcmpLen p 2 vt va vb ra) vt ra (float .double)

/-- VAND, VOR and VEOR, both forms: bitwise, 64 bits. -/
def Obligations.LogicalBitwise : Prop :=
  ∀ (p : Pred) (vt va vb : VReg) (ra : GReg),
    ElementFormWrites (.vand p vt va vb ra) vt ra (fun s e => s.elem va e &&& s.elem vb e) ∧
    LengthFormWrites (.vandLen p vt va vb ra) vt ra (fun s e => s.elem va e &&& s.elem vb e) ∧
    ElementFormWrites (.vor p vt va vb ra) vt ra (fun s e => s.elem va e ||| s.elem vb e) ∧
    LengthFormWrites (.vorLen p vt va vb ra) vt ra (fun s e => s.elem va e ||| s.elem vb e) ∧
    ElementFormWrites (.veor p vt va vb ra) vt ra (fun s e => s.elem va e ^^^ s.elem vb e) ∧
    LengthFormWrites (.veorLen p vt va vb ra) vt ra (fun s e => s.elem va e ^^^ s.elem vb e)

/-- A typed 57h instruction that executes with a reserved type is refused, and so is one with Float Quad
(40_vector_arith_57h.md section 1; U1, U3). -/
def Obligations.ReservedTypesRefused : Prop :=
  ∀ (s : State) (p : Pred) (t : BitVec 3) (vt va vb : VReg) (rb ra : GReg) (i : Instr),
    i ∈ [.vadd p t vt va vb ra, .vaddLen p t vt va vb ra, .vsub p t vt va vb ra, .vsubLen p t vt va vb ra,
      .vmul p t vt va vb ra, .vmulLen p t vt va vb ra, .vdiv p t vt va vb ra, .vdivLen p t vt va vb ra,
      .vcmp p t vt va vb ra, .vcmpLen p t vt va vb ra, .vscale p t vt va rb ra, .vscaleLen p t vt va rb ra] →
    s.predHolds p = true →
    (t = 3 ∨ t = 5 ∨ t = 6 ∨ t = 7 → exec i s = .refused (.reservedType t)) ∧ (t = 4 → exec i s = .refused .floatQuad)

/-- In the 57h instructions an index at or above `VL_MAX` and a length above `VL_MAX` are refused: the whole register counts,
unsigned, the spec's own decision (40_vector_arith_57h.md section 1; D9, log 23, U7, U8). -/
def Obligations.IndexAndLengthOutOfRangeRefused : Prop :=
  ∀ (p : Pred) (t : BitVec 3) (vt va vb : VReg) (rb ra : GReg), t = 0 ∨ t = 1 ∨ t = 2 →
    (IndexRefused (.vadd p t vt va vb ra) ra ∧ IndexRefused (.vsub p t vt va vb ra) ra ∧
      IndexRefused (.vmul p t vt va vb ra) ra ∧ IndexRefused (.vdiv p t vt va vb ra) ra ∧
      IndexRefused (.vcmp p t vt va vb ra) ra ∧ IndexRefused (.vscale p t vt va rb ra) ra ∧
      IndexRefused (.vand p vt va vb ra) ra ∧ IndexRefused (.vor p vt va vb ra) ra ∧ IndexRefused (.veor p vt va vb ra) ra) ∧
    (LengthRefused (.vaddLen p t vt va vb ra) ra ∧ LengthRefused (.vsubLen p t vt va vb ra) ra ∧
      LengthRefused (.vmulLen p t vt va vb ra) ra ∧ LengthRefused (.vdivLen p t vt va vb ra) ra ∧
      LengthRefused (.vcmpLen p t vt va vb ra) ra ∧ LengthRefused (.vscaleLen p t vt va rb ra) ra ∧
      LengthRefused (.vandLen p vt va vb ra) ra ∧ LengthRefused (.vorLen p vt va vb ra) ra ∧
      LengthRefused (.veorLen p vt va vb ra) ra)

/-- The element operations of a 57h length form may be done one by one, in any order: the state is the same, also when the target
is a source (40_vector_arith_57h.md section 1, 00_scope.md section 6). `f` is each instruction's element operation. -/
def Obligations.LengthFormIsElementsInAnyOrder : Prop :=
  ∀ (s t : State) (p : Pred) (ty : BitVec 3) (vt va vb : VReg) (rb ra : GReg) (ot : OperandType) (l : List ElemIx) (i : Instr)
    (f : State → ElemIx → Word),
    (i = .vaddLen p ty vt va vb ra ∧ f = (fun s e => opAdd ot (s.elem va e) (s.elem vb e))) ∨
      (i = .vsubLen p ty vt va vb ra ∧ f = (fun s e => opSub ot (s.elem va e) (s.elem vb e))) ∨
      (i = .vmulLen p ty vt va vb ra ∧ f = (fun s e => opMul ot (s.elem va e) (s.elem vb e))) ∨
      (i = .vdivLen p ty vt va vb ra ∧ f = (fun s e => opDiv ot (s.elem va e) (s.elem vb e))) ∨
      (i = .vcmpLen p ty vt va vb ra ∧ f = (fun s e => opCmp ot (s.elem va e) (s.elem vb e))) ∨
      (i = .vscaleLen p ty vt va rb ra ∧ f = (fun s e => opMul ot (s.elem va e) (s.gpr rb))) ∨
      (i = .vandLen p vt va vb ra ∧ f = (fun s e => s.elem va e &&& s.elem vb e)) ∨
      (i = .vorLen p vt va vb ra ∧ f = (fun s e => s.elem va e ||| s.elem vb e)) ∨
      (i = .veorLen p vt va vb ra ∧ f = (fun s e => s.elem va e ^^^ s.elem vb e)) →
    s.predHolds p = true → operandType ty = .ok ot → exec i s = .next t →
    l.Nodup → (∀ e : ElemIx, e ∈ l ↔ e.val < (s.gpr ra).toNat) →
    t = { s.eachElement vt f l with pc := s.pcAfter i }

/-! ## Opcode 56h -/

/-- The 56h instructions raise nothing and write no flag, begin with the predicate test (D6) and end with `pc + 5`; VEX and VEINS
refuse an index in `x[Ra]` that is out of range, the other six a length that is: the spec's own decision (41_vector_misc_56h.md
section 1; D9, log 23). What each does with its index or length is stated one by one below. -/
def Obligations.Misc56SharedRule : Prop :=
  (∀ (i : Instr) (s : State), i.opcode = 0x56 →
    (∀ f, exec i s ≠ .fault f) ∧ (∀ t, exec i s = .next t → t.pred = s.pred ∧ t.pc = s.pc + 5) ∧
    (s.predHolds i.pred = false → s.pc.toNat + 5 < 2 ^ 64 → exec i s = .next { s with pc := s.pc + 5 })) ∧
  ∀ (p : Pred) (a b c : BitVec 6),
    IndexRefused (.vex p a b c) c ∧ IndexRefused (.veins p a b c) c ∧
    LengthRefused (.vbits2v p a b c) c ∧ LengthRefused (.v2bits p a b c) c ∧ LengthRefused (.vflt2int p a b c) c ∧
    LengthRefused (.vint2flt p a b c) c ∧ LengthRefused (.vshl p a b c) c ∧ LengthRefused (.vshr p a b c) c

/-- VBITS2V: bit `e` of `x[Rb]` as the value 0 or 1 of element `e`; the bits at and above the length are ignored. That a true element
is 1 is the spec's own decision (D18, log 25). -/
def Obligations.Vbits2vSpreadsBits : Prop :=
  ∀ (p : Pred) (vt : VReg) (rb ra : GReg),
    LengthFormWrites (.vbits2v p vt rb ra) vt ra (fun s e => BitVec.ofNat 64 ((s.gpr rb).toNat / 2 ^ e.val % 2))

/-- R124: VEINS, its encoding, its effect (all 64 bits of `x[Rb]` into the one element), its refusal, and its example. -/
def Obligations.VeinsInserts : Prop :=
  ∀ (p : Pred) (vt : VReg) (rb ra : GReg),
    FieldsV40 (.veins p vt rb ra) vt rb ra ∧ (encodeWord (.veins p vt rb ra)).extractLsb' 34 6 = 1#6 ∧
    ElementFormWrites (.veins p vt rb ra) vt ra (fun s _ => s.gpr rb) ∧ IndexRefused (.veins p vt rb ra) ra ∧
    (∀ s f, exec (.veins p vt rb ra) s ≠ .fault f) ∧
    encode (.veins ⟨0, 1⟩ 3 7 5) = [0x01, 0x56, 0xC5, 0x31, 0x04]

/-- R125: VEX, its encoding, its effect (the whole element into `x[Rt]`, also when `Rt` is `Ra`; nothing is written when `Rt` is 0
under `R0_IS_ZERO`), its refusal, and its example. -/
def Obligations.VexExtracts : Prop :=
  ∀ (p : Pred) (rt : GReg) (va : VReg) (ra : GReg),
    FieldsV40 (.vex p rt va ra) rt va ra ∧ (encodeWord (.vex p rt va ra)).extractLsb' 34 6 = 0#6 ∧
    (∀ (s : State) (e : ElemIx), s.Runs (.vex p rt va ra) → s.HasVRegsOf (.vex p rt va ra) →
      (s.gpr ra).toNat = e.val → e.val < s.vlMax →
      ∃ t, exec (.vex p rt va ra) s = .next t ∧ WroteGprs (.vex p rt va ra) s t ∧
        ∀ r, t.gpr r = if r = rt ∧ ¬(s.params.r0IsZero = true ∧ rt = 0) then s.elem va e else s.gpr r) ∧
    IndexRefused (.vex p rt va ra) ra ∧ (∀ s f, exec (.vex p rt va ra) s ≠ .fault f) ∧
    encode (.vex ⟨0, 1⟩ 4 1 5) = [0x01, 0x56, 0x45, 0x40, 0x00]

/-- VFLT2INT and VINT2FLT apply the open conversions to each element below the length. -/
def Obligations.ConversionsConvert : Prop :=
  ∀ (p : Pred) (vt va : VReg) (ra : GReg),
    LengthFormWrites (.vflt2int p vt va ra) vt ra (fun s e => Config.cvtF2I (s.elem va e)) ∧
    LengthFormWrites (.vint2flt p vt va ra) vt ra (fun s e => Config.cvtI2F (s.elem va e))

/-- VSHL with a length `n` below `VL_MAX` writes the elements 0 to `n`: element 0 becomes 0 and each other the element below it,
as it was before the instruction; the length `VL_MAX` is refused. The reading of all sources before the write is the spec's own
decision (D11, log 28), and so are the bounds (D36, log 23). -/
def Obligations.VshlShiftsUp : Prop :=
  ∀ (s : State) (p : Pred) (vt va : VReg) (ra : GReg), s.Runs (.vshl p vt va ra) → s.HasVRegsOf (.vshl p vt va ra) →
    ((s.gpr ra).toNat < s.vlMax →
      ∃ t, exec (.vshl p vt va ra) s = .next t ∧ WroteElements (.vshl p vt va ra) s t ∧
        (∀ k : ElemIx, k.val = 0 → t.elem vt k = 0) ∧
        (∀ k j : ElemIx, k.val = j.val + 1 → k.val ≤ (s.gpr ra).toNat → t.elem vt k = s.elem va j) ∧
        ∀ r k, r ≠ vt ∨ (s.gpr ra).toNat < k.val → t.elem r k = s.elem r k) ∧
    ((s.gpr ra).toNat = s.vlMax → exec (.vshl p vt va ra) s = .refused .shiftPastLastElement)

/-- VSHR with a length `n` from 1 to `VL_MAX` writes the elements 0 to `n - 1`: element `n - 1` becomes 0 and each other the
element above it, as it was before the instruction; the length 0 is refused. The reading of all sources before the write is the
spec's own decision (D11, log 28), and so is the refusal (D36, log 23). -/
def Obligations.VshrShiftsDown : Prop :=
  ∀ (s : State) (p : Pred) (vt va : VReg) (ra : GReg), s.Runs (.vshr p vt va ra) → s.HasVRegsOf (.vshr p vt va ra) →
    (0 < (s.gpr ra).toNat → (s.gpr ra).toNat ≤ s.vlMax →
      ∃ t, exec (.vshr p vt va ra) s = .next t ∧ WroteElements (.vshr p vt va ra) s t ∧
        (∀ k : ElemIx, k.val + 1 = (s.gpr ra).toNat → t.elem vt k = 0) ∧
        (∀ k j : ElemIx, j.val = k.val + 1 → j.val < (s.gpr ra).toNat → t.elem vt k = s.elem va j) ∧
        ∀ r k, r ≠ vt ∨ (s.gpr ra).toNat ≤ k.val → t.elem r k = s.elem r k) ∧
    ((s.gpr ra).toNat = 0 → exec (.vshr p vt va ra) s = .refused .shiftOfNoElements)

/-- V2BITS gathers the low bits of the elements below the length; the bits above them are 0, kept, or free, as `V2BITS_UPPER`
says (log 16), and a register that discards writes keeps reading 0. -/
def Obligations.V2bitsGathers : Prop :=
  ∀ (s : State) (p : Pred) (rt : GReg) (va : VReg) (ra : GReg), s.Runs (.v2bits p rt va ra) →
    s.HasVRegsOf (.v2bits p rt va ra) → (s.gpr ra).toNat ≤ s.vlMax →
    ∃ t, exec (.v2bits p rt va ra) s = .next t ∧
      t = { s with pc := s.pcAfter (.v2bits p rt va ra), x := t.x, freeIx := t.freeIx } ∧
      (s.params.v2bitsUpper ≠ .any → t.freeIx = s.freeIx) ∧
      (∀ r, r ≠ rt ∨ (s.params.r0IsZero = true ∧ rt = 0) → t.gpr r = s.gpr r) ∧
      (¬(s.params.r0IsZero = true ∧ rt = 0) →
        (∀ k : ElemIx, k.val < (s.gpr ra).toNat → (t.gpr rt).getLsbD k.val = (s.elem va k).getLsbD 0) ∧
        ∀ k, (s.gpr ra).toNat ≤ k → k < 64 →
          (s.params.v2bitsUpper = .zero → (t.gpr rt).getLsbD k = false) ∧
          (s.params.v2bitsUpper = .preserve → (t.gpr rt).getLsbD k = (s.gpr rt).getLsbD k))

/-- VBITS2V and then V2BITS with the same length returns the low bits of the register (95_test_vectors.md, B5). -/
def Obligations.BitsToVectorAndBack : Prop :=
  ∀ (s t u : State) (p q : Pred) (v : VReg) (rb ra rt : GReg), s.predHolds p = true → t.predHolds q = true →
    s.params.v2bitsUpper = .zero → ¬(s.params.r0IsZero = true ∧ rt = 0) →
    exec (.vbits2v p v rb ra) s = .next t → exec (.v2bits q rt v ra) t = .next u →
    (u.gpr rt).toNat = (s.gpr rb).toNat % 2 ^ (s.gpr ra).toNat

/-- VEINS and then VEX of the same element returns the value inserted (95_test_vectors.md, I3). -/
def Obligations.InsertThenExtract : Prop :=
  ∀ (s t u : State) (p q : Pred) (v : VReg) (rb ra rt : GReg), s.predHolds p = true → t.predHolds q = true →
    ¬(s.params.r0IsZero = true ∧ rt = 0) →
    exec (.veins p v rb ra) s = .next t → exec (.vex q rt v ra) t = .next u → u.gpr rt = s.gpr rb

/-! ## Loads and stores -/

/-- Effective addresses: the base plus the displacement as a signed number of bytes, or plus the index times 2 to the scale,
modulo 2^64 (42_vector_loadstore.md section 1; D20, D21, D39). -/
def Obligations.EffectiveAddresses : Prop :=
  ∀ (s : State) (disp : BitVec 11) (sc : BitVec 2) (rb ra : GReg),
    (s.eaDisp disp ra).toInt = ((s.gpr ra).toInt + disp.toInt).bmod (2 ^ 64) ∧
    (s.eaIndexed sc rb ra).toNat = ((s.gpr ra).toNat + (s.gpr rb).toNat * 2 ^ sc.toNat) % 2 ^ 64

/-- VLD and VLDX: where the access reaches memory, the element becomes the eight bytes there, the lowest in bits 7:0, and
nothing else changes. The byte order is the spec's own decision (D7, log 26). -/
def Obligations.LoadsLoad : Prop :=
  ∀ (s : State) (p : Pred) (seg : BitVec 3) (disp : BitVec 11) (sc : BitVec 2) (vt : VReg) (rc rb ra : GReg) (e : ElemIx)
    (addr : Word) (i : Instr) (ea : Word) (ix : GReg),
    (i = .vld p seg disp vt rb ra ∧ ea = s.eaDisp disp ra ∧ ix = rb) ∨
      (i = .vldx p seg 0 sc vt rc rb ra ∧ ea = s.eaIndexed sc rb ra ∧ ix = rc) →
    s.Runs i → s.HasVRegsOf i → (s.gpr ix).toNat = e.val → e.val < s.vlMax → s.Reaches .load seg ea addr →
    ∃ t, exec i s = .next t ∧ WroteElements i s t ∧
      (∀ k < 8, (t.elem vt e).extractLsb' (8 * k) 8 = s.mem.read (addr.toNat + k)) ∧
      ∀ r k, ¬(r = vt ∧ k = e) → t.elem r k = s.elem r k

/-- VST and VSTX: where the access reaches memory outside the program text, the eight bytes from the address become the
element, bits 7:0 lowest, every other byte reads as before, and no register changes. The byte order is the spec's own decision
(D7, log 26). -/
def Obligations.StoresStore : Prop :=
  ∀ (s : State) (p : Pred) (seg : BitVec 3) (disp : BitVec 11) (sc : BitVec 2) (vs : VReg) (rc rb ra : GReg) (e : ElemIx)
    (addr : Word) (i : Instr) (ea : Word) (ix : GReg),
    (i = .vst p seg disp vs rb ra ∧ ea = s.eaDisp disp ra ∧ ix = rb) ∨
      (i = .vstx p seg 0 sc vs rc rb ra ∧ ea = s.eaIndexed sc rb ra ∧ ix = rc) →
    s.Inv → s.Runs i → s.HasVRegsOf i → (s.gpr ix).toNat = e.val → e.val < s.vlMax → s.Reaches .store seg ea addr →
    s.overlapsText addr.toNat = false →
    ∃ t, exec i s = .next t ∧ WroteMemory i s t ∧
      ∀ a, t.mem.read a =
        if addr.toNat ≤ a ∧ a < addr.toNat + 8 then (s.elem vs e).extractLsb' (8 * (a - addr.toNat)) 8 else s.mem.read a

/-- What a load or store answers where the access does not reach memory: the exception of `Translate` before that of
`MemFault`, with no state changed (42_vector_loadstore.md section 1, 60_exceptions.md sections 1, 3; D24, D25, logs 9, 29); and a
refusal where the platform says that the address is no ordinary memory (20_memory.md section 3, D30). That the platform can say so
through `memFault` is the model's choice (log 8). -/
def Obligations.AccessExceptions : Prop :=
  ∀ (s : State) (p : Pred) (seg : BitVec 3) (disp : BitVec 11) (sc : BitVec 2) (v : VReg) (rc rb ra : GReg) (e : ElemIx)
    (i : Instr) (kind : AccessKind) (ea : Word) (ix : GReg),
    (i = .vld p seg disp v rb ra ∧ kind = .load ∧ ea = s.eaDisp disp ra ∧ ix = rb) ∨
      (i = .vldx p seg 0 sc v rc rb ra ∧ kind = .load ∧ ea = s.eaIndexed sc rb ra ∧ ix = rc) ∨
      (i = .vst p seg disp v rb ra ∧ kind = .store ∧ ea = s.eaDisp disp ra ∧ ix = rb) ∨
      (i = .vstx p seg 0 sc v rc rb ra ∧ kind = .store ∧ ea = s.eaIndexed sc rb ra ∧ ix = rc) →
    s.predHolds p = true → s.HasVRegsOf i → (s.gpr ix).toNat = e.val → e.val < s.vlMax →
    (s.params.misaligned = .refuse → ea.toNat % 8 = 0) →
    (∀ x, s.translate seg ea kind = .error x → exec i s = .fault (.raised x s.pc none)) ∧
    ∀ addr, s.translate seg ea kind = .ok addr →
      (s.memFault kind addr = some .dbe → exec i s = .fault (.raised .dbe s.pc (some addr))) ∧
      (s.memFault kind addr = some .dbg → exec i s = .fault (.raised .dbg s.pc (some addr))) ∧
      (s.memFault kind addr = some .device → exec i s = .refused .notOrdinaryMemory)

/-- What a load or store that executes is refused for: nonzero unused bits, an index at or above `VL_MAX` before any access, a
misaligned offset where `MISALIGNED` is `refuse`, and a store to the program text. -/
def Obligations.AccessRefusals : Prop :=
  ∀ (s : State) (p : Pred) (seg u : BitVec 3) (disp : BitVec 11) (sc : BitVec 2) (v : VReg) (rc rb ra : GReg),
    s.predHolds p = true →
    (u ≠ 0 → exec (.vldx p seg u sc v rc rb ra) s = .refused .unusedBitsSet ∧
      exec (.vstx p seg u sc v rc rb ra) s = .refused .unusedBitsSet) ∧
    IndexRefused (.vld p seg disp v rb ra) rb ∧ IndexRefused (.vst p seg disp v rb ra) rb ∧
    IndexRefused (.vldx p seg 0 sc v rc rb ra) rc ∧ IndexRefused (.vstx p seg 0 sc v rc rb ra) rc ∧
    (s.hasVReg v = true → (s.gpr rb).toNat < s.vlMax → s.params.misaligned = .refuse → (s.eaDisp disp ra).toNat % 8 ≠ 0 →
      exec (.vld p seg disp v rb ra) s = .refused .misalignedAccess ∧
      exec (.vst p seg disp v rb ra) s = .refused .misalignedAccess) ∧
    (s.hasVReg v = true → (s.gpr rc).toNat < s.vlMax → s.params.misaligned = .refuse →
      (s.eaIndexed sc rb ra).toNat % 8 ≠ 0 →
      exec (.vldx p seg 0 sc v rc rb ra) s = .refused .misalignedAccess ∧
      exec (.vstx p seg 0 sc v rc rb ra) s = .refused .misalignedAccess) ∧
    (∀ addr, s.overlapsText addr.toNat = true → s.hasVReg v = true →
      ((s.gpr rb).toNat < s.vlMax → s.Reaches .store seg (s.eaDisp disp ra) addr →
        exec (.vst p seg disp v rb ra) s = .refused .storeToProgramText) ∧
      ((s.gpr rc).toNat < s.vlMax → s.Reaches .store seg (s.eaIndexed sc rb ra) addr →
        exec (.vstx p seg 0 sc v rc rb ra) s = .refused .storeToProgramText))

/-- What a load or store answers where no platform is given: whichever of LMT and TLB the unconstrained `Translate` says, else
whichever of DBE and DBG the unconstrained `MemFault` says of this access in this state, and else the access reaches memory, unless
its bytes lie beyond the top of the address space (60_exceptions.md section 1; D24, U18, logs 7, 8, 9). -/
def Obligations.AccessWithNoPlatformGiven : Prop :=
  ∀ (s : State) (p : Pred) (seg : BitVec 3) (disp : BitVec 11) (sc : BitVec 2) (v : VReg) (rc rb ra : GReg) (e : ElemIx)
    (i : Instr) (kind : AccessKind) (ea : Word) (ix : GReg),
    (i = .vld p seg disp v rb ra ∧ kind = .load ∧ ea = s.eaDisp disp ra ∧ ix = rb) ∨
      (i = .vldx p seg 0 sc v rc rb ra ∧ kind = .load ∧ ea = s.eaIndexed sc rb ra ∧ ix = rc) ∨
      (i = .vst p seg disp v rb ra ∧ kind = .store ∧ ea = s.eaDisp disp ra ∧ ix = rb) ∨
      (i = .vstx p seg 0 sc v rc rb ra ∧ kind = .store ∧ ea = s.eaIndexed sc rb ra ∧ ix = rc) →
    s.xlate = [] → s.access = [] →
    s.predHolds p = true → s.HasVRegsOf i → (s.gpr ix).toNat = e.val → e.val < s.vlMax →
    (s.params.misaligned = .refuse → ea.toNat % 8 = 0) →
    match Config.translate s seg ea kind with
    | .lmt => exec i s = .fault (.raised .lmt s.pc none)
    | .tlb => exec i s = .fault (.raised .tlb s.pc none)
    | .plus d =>
      match Config.memFault s kind (ea + d) with
      | some .dbe => exec i s = .fault (.raised .dbe s.pc (some (ea + d)))
      | some .dbg => exec i s = .fault (.raised .dbg s.pc (some (ea + d)))
      | none =>
        if (ea + d).toNat + 8 ≤ 2 ^ 64 then s.Reaches kind seg ea (ea + d)
        else exec i s = .fault (.raised .dbe s.pc (some (ea + d)))

/-- A load (VLD or VLDX) from the address that a store (VST or VSTX) has just written returns the element stored, all 64 bits
(20_memory.md sections 3, 6). -/
def Obligations.StoreThenLoad : Prop :=
  ∀ (s t u : State) (p q : Pred) (seg seg' un un' : BitVec 3) (disp disp' : BitVec 11) (sc sc' : BitVec 2) (vs vt : VReg)
    (rc rb ra rc' rb' ra' : GReg) (addr : Word) (e e' : ElemIx) (i j : Instr) (ea ea' : Word) (ix ix' : GReg),
    (i = .vst p seg disp vs rb ra ∧ ea = s.eaDisp disp ra ∧ ix = rb) ∨
      (i = .vstx p seg un sc vs rc rb ra ∧ ea = s.eaIndexed sc rb ra ∧ ix = rc) →
    (j = .vld q seg' disp' vt rb' ra' ∧ ea' = t.eaDisp disp' ra' ∧ ix' = rb') ∨
      (j = .vldx q seg' un' sc' vt rc' rb' ra' ∧ ea' = t.eaIndexed sc' rb' ra' ∧ ix' = rc') →
    s.Inv → s.predHolds p = true → t.predHolds q = true →
    s.Reaches .store seg ea addr → t.Reaches .load seg' ea' addr →
    (s.gpr ix).toNat = e.val → (t.gpr ix').toNat = e'.val →
    exec i s = .next t → exec j t = .next u →
    u.elem vt e' = s.elem vs e

/-! ## VMAC -/

/-- VMAC where `VMAC_O(O3)` is the element form: `+-(+-Va * +-Vb +- Vc)` modulo 2^64 with the inversions of `Sn4`, and `FMac` in the
two floating-point types; the three sources are read before the write. The wrap and the places of the inversions are the spec's own
decisions (D13, log 21; D27, log 22). -/
def Obligations.VmacElementForm : Prop :=
  ∀ (p : Pred) (o : BitVec 3) (sn : BitVec 4) (vt va vb vc : VReg) (ra : GReg) (s : State) (e : ElemIx) (t : BitVec 3),
    s.params.vmacO[o.toNat]'o.isLt = .element → t = 0 ∨ t = 1 ∨ t = 2 →
    s.Runs (.vmac p o sn t vt va vb vc ra) → s.HasVRegsOf (.vmac p o sn t vt va vb vc ra) →
    (s.gpr ra).toNat = e.val → e.val < s.vlMax →
    ∃ u, exec (.vmac p o sn t vt va vb vc ra) s = .next u ∧ WroteElements (.vmac p o sn t vt va vb vc ra) s u ∧
      (∀ r k, ¬(r = vt ∧ k = e) → u.elem r k = s.elem r k) ∧
      (t = 0 → u.elem vt e = BitVec.ofInt 64
        ((if sn.getLsbD 3 then -1 else 1) *
          ((if sn.getLsbD 0 then -(s.elem va e).toInt else (s.elem va e).toInt) *
            (if sn.getLsbD 1 then -(s.elem vb e).toInt else (s.elem vb e).toInt) +
            (if sn.getLsbD 2 then -(s.elem vc e).toInt else (s.elem vc e).toInt)))) ∧
      (t = 1 → u.elem vt e = Config.fMac .single sn (s.elem va e) (s.elem vb e) (s.elem vc e)) ∧
      (t = 2 → u.elem vt e = Config.fMac .double sn (s.elem va e) (s.elem vb e) (s.elem vc e))

/-- VMAC where `VMAC_O(O3)` is the length form: the same on every element below the length (43_vector_mac_5Ah.md). -/
def Obligations.VmacLengthForm : Prop :=
  ∀ (p : Pred) (o : BitVec 3) (sn : BitVec 4) (vt va vb vc : VReg) (ra : GReg) (s : State) (t : BitVec 3) (ot : OperandType),
    s.params.vmacO[o.toNat]'o.isLt = .length → operandType t = .ok ot →
    s.Runs (.vmac p o sn t vt va vb vc ra) → s.HasVRegsOf (.vmac p o sn t vt va vb vc ra) →
    (s.gpr ra).toNat ≤ s.vlMax →
    ∃ u, exec (.vmac p o sn t vt va vb vc ra) s = .next u ∧ WroteElements (.vmac p o sn t vt va vb vc ra) s u ∧
      ∀ r k, u.elem r k =
        if r = vt ∧ k.val < (s.gpr ra).toNat then opMac sn ot (s.elem va k) (s.elem vb k) (s.elem vc k) else s.elem r k

/-- VMAC that executes is refused where `VMAC_O(O3)` is reserved, where its type is reserved or Float Quad, and where its index
or length is out of range (43_vector_mac_5Ah.md; U1, U3, U7, U8, U13). -/
def Obligations.VmacRefusals : Prop :=
  ∀ (p : Pred) (o : BitVec 3) (sn : BitVec 4) (t : BitVec 3) (vt va vb vc : VReg) (ra : GReg) (s : State),
    s.predHolds p = true →
    (s.params.vmacO[o.toNat]'o.isLt = .reserved →
      exec (.vmac p o sn t vt va vb vc ra) s = .refused (.vmacFormReserved o)) ∧
    (s.params.vmacO[o.toNat]'o.isLt ≠ .reserved →
      (t = 4 → exec (.vmac p o sn t vt va vb vc ra) s = .refused .floatQuad) ∧
      (t = 3 ∨ t = 5 ∨ t = 6 ∨ t = 7 → exec (.vmac p o sn t vt va vb vc ra) s = .refused (.reservedType t)) ∧
      (t = 0 ∨ t = 1 ∨ t = 2 → s.HasVRegsOf (.vmac p o sn t vt va vb vc ra) →
        (s.params.vmacO[o.toNat]'o.isLt = .element → s.vlMax ≤ (s.gpr ra).toNat →
          exec (.vmac p o sn t vt va vb vc ra) s = .refused .elementIndexOutOfRange) ∧
        (s.params.vmacO[o.toNat]'o.isLt = .length → s.vlMax < (s.gpr ra).toNat →
          exec (.vmac p o sn t vt va vb vc ra) s = .refused .vectorLengthOutOfRange)))
end

