-- ==== Sys2Proof/Laws/Decode.lean ====
section
/-! SUPPORT. The fields of the instruction words, and bytes to words and back. -/

namespace Sys2Proof

/-! ## Fields of the formats -/

section fields
variable (p : Pred) (seg u t o : BitVec 3) (sc : BitVec 2) (sn : BitVec 4) (disp : BitVec 11) (opc : BitVec 8)
  (f6 a b c d e : BitVec 6) (f5 : BitVec 5)

/-- The predicate fields of a word whose low byte they are (R51). -/
theorem predOf_eq {w : BitVec 56} (h : w.extractLsb' 4 4 = p.pn) (h' : w.extractLsb' 0 4 = p.pc) : predOf w = p := by
  unfold predOf; rw [h, h']

/-- The fields of format V40 (R52). -/
theorem wordV40_fields : let w := wordV40 f6 a b c p
    w.extractLsb' 40 16 = 0#16 ∧ w.extractLsb' 34 6 = f6 ∧ w.extractLsb' 28 6 = a ∧ w.extractLsb' 22 6 = b ∧
    w.extractLsb' 16 6 = c ∧ w.extractLsb' 8 8 = opcV40 ∧ w.extractLsb' 4 4 = p.pn ∧ w.extractLsb' 0 4 = p.pc := by
  unfold wordV40
  refine ⟨?_, ?_, ?_, ?_, ?_, ?_, ?_, ?_⟩ <;>
  simp (disch := omega) only [BitVec.extractLsb'_append_eq_of_le, BitVec.extractLsb'_append_eq_of_add_le, Nat.reduceSub,
    BitVec.extractLsb'_eq_self]

/-- The fields of format V48 (R53). -/
theorem wordV48_fields : let w := wordV48 f5 t a b c d p
    w.extractLsb' 48 8 = 0#8 ∧ w.extractLsb' 43 5 = f5 ∧ w.extractLsb' 40 3 = t ∧ w.extractLsb' 34 6 = a ∧
    w.extractLsb' 28 6 = b ∧ w.extractLsb' 22 6 = c ∧ w.extractLsb' 16 6 = d ∧ w.extractLsb' 8 8 = opcV48 ∧
    w.extractLsb' 4 4 = p.pn ∧ w.extractLsb' 0 4 = p.pc := by
  unfold wordV48
  refine ⟨?_, ?_, ?_, ?_, ?_, ?_, ?_, ?_, ?_, ?_⟩ <;>
  simp (disch := omega) only [BitVec.extractLsb'_append_eq_of_le, BitVec.extractLsb'_append_eq_of_add_le, Nat.reduceSub,
    BitVec.extractLsb'_eq_self]

/-- The fields of format VLS (R54). -/
theorem wordVls_fields : let w := wordVls opc seg disp a b c p
    w.extractLsb' 48 8 = 0#8 ∧ w.extractLsb' 45 3 = seg ∧ w.extractLsb' 34 11 = disp ∧ w.extractLsb' 28 6 = a ∧
    w.extractLsb' 22 6 = b ∧ w.extractLsb' 16 6 = c ∧ w.extractLsb' 8 8 = opc ∧ w.extractLsb' 4 4 = p.pn ∧
    w.extractLsb' 0 4 = p.pc := by
  unfold wordVls
  refine ⟨?_, ?_, ?_, ?_, ?_, ?_, ?_, ?_, ?_⟩ <;>
  simp (disch := omega) only [BitVec.extractLsb'_append_eq_of_le, BitVec.extractLsb'_append_eq_of_add_le, Nat.reduceSub,
    BitVec.extractLsb'_eq_self]

/-- The fields of format VLX (R55). -/
theorem wordVlx_fields : let w := wordVlx opc seg u sc a b c d p
    w.extractLsb' 48 8 = 0#8 ∧ w.extractLsb' 45 3 = seg ∧ w.extractLsb' 42 3 = u ∧ w.extractLsb' 40 2 = sc ∧
    w.extractLsb' 34 6 = a ∧ w.extractLsb' 28 6 = b ∧ w.extractLsb' 22 6 = c ∧ w.extractLsb' 16 6 = d ∧
    w.extractLsb' 8 8 = opc ∧ w.extractLsb' 4 4 = p.pn ∧ w.extractLsb' 0 4 = p.pc := by
  unfold wordVlx
  refine ⟨?_, ?_, ?_, ?_, ?_, ?_, ?_, ?_, ?_, ?_, ?_⟩ <;>
  simp (disch := omega) only [BitVec.extractLsb'_append_eq_of_le, BitVec.extractLsb'_append_eq_of_add_le, Nat.reduceSub,
    BitVec.extractLsb'_eq_self]

/-- The fields of format VM56 (R56). -/
theorem wordVm56_fields : let w := wordVm56 o sn t a b c d e p
    w.extractLsb' 53 3 = o ∧ w.extractLsb' 49 4 = sn ∧ w.extractLsb' 46 3 = t ∧ w.extractLsb' 40 6 = a ∧
    w.extractLsb' 34 6 = b ∧ w.extractLsb' 28 6 = c ∧ w.extractLsb' 22 6 = d ∧ w.extractLsb' 16 6 = e ∧
    w.extractLsb' 8 8 = opcVmac ∧ w.extractLsb' 4 4 = p.pn ∧ w.extractLsb' 0 4 = p.pc := by
  unfold wordVm56
  refine ⟨?_, ?_, ?_, ?_, ?_, ?_, ?_, ?_, ?_, ?_, ?_⟩ <;>
  simp (disch := omega) only [BitVec.extractLsb'_append_eq_of_le, BitVec.extractLsb'_append_eq_of_add_le, Nat.reduceSub,
    BitVec.extractLsb'_eq_self]

end fields

/-! ## Bytes and words -/

@[simp] theorem bytesOfWord_length (n : Nat) (w : BitVec 56) : (bytesOfWord n w).length = n := by simp [bytesOfWord]

@[simp] theorem bytesOfWord_getElem (n : Nat) (w : BitVec 56) (k : Nat) (h : k < (bytesOfWord n w).length) :
    (bytesOfWord n w)[k] = w.extractLsb' (8 * k) 8 := by simp [bytesOfWord]

/-- Bit `j` of the word of a list of bytes is bit `j % 8` of byte `j / 8`. -/
theorem wordOfBytes_getLsbD (bs : List Byte) {j : Nat} (hj : j < 56) :
    (wordOfBytes bs).getLsbD j = ((bs[j / 8]?).getD 0).getLsbD (j % 8) := by
  induction bs generalizing j with
  | nil => simp [wordOfBytes]
  | cons b bs ih =>
    by_cases h : j < 8
    · have : j / 8 = 0 := by omega
      have hm : j % 8 = j := by omega
      simp [wordOfBytes, hj, h, this, hm]
    · obtain ⟨q, hq⟩ : ∃ q, j / 8 = q + 1 := ⟨j / 8 - 1, by omega⟩
      have hb : b.getLsbD j = false := BitVec.getLsbD_of_ge b j (by omega)
      have h1 : (j - 8) / 8 = q := by omega
      have h2 : (j - 8) % 8 = j % 8 := by omega
      have := ih (j := j - 8) (by omega)
      rw [h1, h2, BitVec.getLsbD_eq_getElem (by omega)] at this
      simpa [wordOfBytes, hj, h, hb, hq] using this

/-- The bytes of a word with nothing above `n` bytes make that word again. -/
theorem wordOfBytes_bytesOfWord {n : Nat} {w : BitVec 56} (h : ∀ j, 8 * n ≤ j → w.getLsbD j = false) :
    wordOfBytes (bytesOfWord n w) = w := by
  apply BitVec.eq_of_getLsbD_eq
  intro j hj
  rw [wordOfBytes_getLsbD _ hj]
  have hm : j % 8 < 8 := by omega
  have hd : 8 * (j / 8) + j % 8 = j := by omega
  by_cases hn : j / 8 < n
  · simp [hn, hm, hd]
  · rw [List.getElem?_eq_none (by simpa using Nat.le_of_not_lt hn), h j (by omega)]; simp

/-- The word of at most 7 bytes gives those bytes again. -/
theorem bytesOfWord_wordOfBytes {bs : List Byte} (h : bs.length ≤ 7) : bytesOfWord bs.length (wordOfBytes bs) = bs := by
  apply List.ext_getElem (by simp)
  intro k h1 h2
  rw [bytesOfWord_getElem]
  apply BitVec.eq_of_getLsbD_eq
  intro i hi
  have hd : (8 * k + i) / 8 = k := by omega
  have hm : (8 * k + i) % 8 = i := by omega
  rw [BitVec.getLsbD_extractLsb']
  simp [hi, wordOfBytes_getLsbD bs (j := 8 * k + i) (by omega), hd, hm, List.getElem?_eq_getElem h2]

/-- The word of `n` bytes has nothing above them. -/
theorem wordOfBytes_above {bs : List Byte} {j : Nat} (h : 8 * bs.length ≤ j) : (wordOfBytes bs).getLsbD j = false := by
  by_cases hj : j < 56
  · rw [wordOfBytes_getLsbD bs hj, List.getElem?_eq_none (by omega)]; simp
  · exact BitVec.getLsbD_of_ge _ _ (by omega)

/-- A word whose top bits read 0 has nothing above its low bits. -/
theorem above_of_extractLsb' {w : BitVec 56} {n m : Nat} (hnm : n + m = 56) (h : w.extractLsb' n m = 0) {j : Nat}
    (hj : n ≤ j) : w.getLsbD j = false := by
  by_cases h56 : j < 56
  · have := congrArg (fun v => v.getLsbD (j - n)) h
    have hlt : j - n < m := by omega
    have hadd : n + (j - n) = j := by omega
    simpa [BitVec.getLsbD_extractLsb', hlt, hadd] using this
  · exact BitVec.getLsbD_of_ge _ _ (by omega)

/-- The length and the opcode byte belong together (R50). -/
theorem instrLength_opcode (i : Instr) : instrLength i.opcode = some i.ilen := by cases i <;> rfl

/-- An instruction is 5, 6 or 7 bytes long (R50). -/
theorem ilen_range (i : Instr) : 5 ≤ i.ilen ∧ i.ilen ≤ 7 := by cases i <;> exact ⟨by simp [Instr.ilen], by simp [Instr.ilen]⟩

end Sys2Proof
end

