-- ==== Sys2Proof/Laws/State.lean ====
section
/-! SUPPORT. What each update of the state leaves in each field: one lemma per field per update. -/

namespace Sys2Proof.Machine

section setVReg
variable (s : State) (r : VReg) (f : Vector Word 64)

@[simp] theorem State.setVReg_pc : (s.setVReg r f).pc = s.pc := rfl
@[simp] theorem State.setVReg_x : (s.setVReg r f).x = s.x := rfl
@[simp] theorem State.setVReg_pred : (s.setVReg r f).pred = s.pred := rfl
@[simp] theorem State.setVReg_xlate : (s.setVReg r f).xlate = s.xlate := rfl
@[simp] theorem State.setVReg_access : (s.setVReg r f).access = s.access := rfl
@[simp] theorem State.setVReg_mem : (s.setVReg r f).mem = s.mem := rfl
@[simp] theorem State.setVReg_textBase : (s.setVReg r f).textBase = s.textBase := rfl
@[simp] theorem State.setVReg_textSize : (s.setVReg r f).textSize = s.textSize := rfl
@[simp] theorem State.setVReg_params : (s.setVReg r f).params = s.params := rfl
@[simp] theorem State.setVReg_freeIx : (s.setVReg r f).freeIx = s.freeIx := rfl
end setVReg

section setElem
variable (s : State) (r : VReg) (e : ElemIx) (w : Word)

@[simp] theorem State.setElem_pc : (s.setElem r e w).pc = s.pc := rfl
@[simp] theorem State.setElem_x : (s.setElem r e w).x = s.x := rfl
@[simp] theorem State.setElem_pred : (s.setElem r e w).pred = s.pred := rfl
@[simp] theorem State.setElem_xlate : (s.setElem r e w).xlate = s.xlate := rfl
@[simp] theorem State.setElem_access : (s.setElem r e w).access = s.access := rfl
@[simp] theorem State.setElem_mem : (s.setElem r e w).mem = s.mem := rfl
@[simp] theorem State.setElem_textBase : (s.setElem r e w).textBase = s.textBase := rfl
@[simp] theorem State.setElem_textSize : (s.setElem r e w).textSize = s.textSize := rfl
@[simp] theorem State.setElem_params : (s.setElem r e w).params = s.params := rfl
@[simp] theorem State.setElem_freeIx : (s.setElem r e w).freeIx = s.freeIx := rfl
end setElem

section setElems
variable (s : State) (r : VReg) (n : Nat) (f : ElemIx → Word)

@[simp] theorem State.setElems_pc : (s.setElems r n f).pc = s.pc := rfl
@[simp] theorem State.setElems_x : (s.setElems r n f).x = s.x := rfl
@[simp] theorem State.setElems_pred : (s.setElems r n f).pred = s.pred := rfl
@[simp] theorem State.setElems_xlate : (s.setElems r n f).xlate = s.xlate := rfl
@[simp] theorem State.setElems_access : (s.setElems r n f).access = s.access := rfl
@[simp] theorem State.setElems_mem : (s.setElems r n f).mem = s.mem := rfl
@[simp] theorem State.setElems_textBase : (s.setElems r n f).textBase = s.textBase := rfl
@[simp] theorem State.setElems_textSize : (s.setElems r n f).textSize = s.textSize := rfl
@[simp] theorem State.setElems_params : (s.setElems r n f).params = s.params := rfl
@[simp] theorem State.setElems_freeIx : (s.setElems r n f).freeIx = s.freeIx := rfl
end setElems

section setGpr
variable (s : State) (i : GReg) (w : Word)

/-- A write of a general purpose register changes the field `x` only. -/
theorem State.setGpr_eq : s.setGpr i w = { s with x := (s.setGpr i w).x } := by
  unfold State.setGpr; split <;> rfl

@[simp] theorem State.setGpr_pc : (s.setGpr i w).pc = s.pc := by rw [State.setGpr_eq]
@[simp] theorem State.setGpr_v : (s.setGpr i w).v = s.v := by rw [State.setGpr_eq]
@[simp] theorem State.setGpr_pred : (s.setGpr i w).pred = s.pred := by rw [State.setGpr_eq]
@[simp] theorem State.setGpr_xlate : (s.setGpr i w).xlate = s.xlate := by rw [State.setGpr_eq]
@[simp] theorem State.setGpr_access : (s.setGpr i w).access = s.access := by rw [State.setGpr_eq]
@[simp] theorem State.setGpr_mem : (s.setGpr i w).mem = s.mem := by rw [State.setGpr_eq]
@[simp] theorem State.setGpr_textBase : (s.setGpr i w).textBase = s.textBase := by rw [State.setGpr_eq]
@[simp] theorem State.setGpr_textSize : (s.setGpr i w).textSize = s.textSize := by rw [State.setGpr_eq]
@[simp] theorem State.setGpr_params : (s.setGpr i w).params = s.params := by rw [State.setGpr_eq]
@[simp] theorem State.setGpr_freeIx : (s.setGpr i w).freeIx = s.freeIx := by rw [State.setGpr_eq]
end setGpr

section v2bitsUpper
variable (s : State) (rt : GReg)

/-- The state after a free draw differs in the counter of free draws only. -/
theorem State.v2bitsUpper_eq : (s.v2bitsUpper rt).2 = { s with freeIx := (s.v2bitsUpper rt).2.freeIx } := by
  unfold State.v2bitsUpper; split <;> rfl

@[simp] theorem State.v2bitsUpper_pc : (s.v2bitsUpper rt).2.pc = s.pc := by rw [State.v2bitsUpper_eq]
@[simp] theorem State.v2bitsUpper_x : (s.v2bitsUpper rt).2.x = s.x := by rw [State.v2bitsUpper_eq]
@[simp] theorem State.v2bitsUpper_v : (s.v2bitsUpper rt).2.v = s.v := by rw [State.v2bitsUpper_eq]
@[simp] theorem State.v2bitsUpper_pred : (s.v2bitsUpper rt).2.pred = s.pred := by rw [State.v2bitsUpper_eq]
@[simp] theorem State.v2bitsUpper_xlate : (s.v2bitsUpper rt).2.xlate = s.xlate := by rw [State.v2bitsUpper_eq]
@[simp] theorem State.v2bitsUpper_access : (s.v2bitsUpper rt).2.access = s.access := by rw [State.v2bitsUpper_eq]
@[simp] theorem State.v2bitsUpper_mem : (s.v2bitsUpper rt).2.mem = s.mem := by rw [State.v2bitsUpper_eq]
@[simp] theorem State.v2bitsUpper_textBase : (s.v2bitsUpper rt).2.textBase = s.textBase := by rw [State.v2bitsUpper_eq]
@[simp] theorem State.v2bitsUpper_textSize : (s.v2bitsUpper rt).2.textSize = s.textSize := by rw [State.v2bitsUpper_eq]
@[simp] theorem State.v2bitsUpper_params : (s.v2bitsUpper rt).2.params = s.params := by rw [State.v2bitsUpper_eq]

/-- The counter advances exactly when a free value is drawn (R130, log 16). -/
theorem State.v2bitsUpper_freeIx :
    (s.v2bitsUpper rt).2.freeIx = if s.params.v2bitsUpper = .any then s.freeIx + 1 else s.freeIx := by
  unfold State.v2bitsUpper; split <;> simp_all
end v2bitsUpper

/-! ## Reading what was written -/

@[simp] theorem State.gpr_setVReg (s : State) (r : VReg) (f : Vector Word 64) (i : GReg) :
    (s.setVReg r f).gpr i = s.gpr i := rfl
@[simp] theorem State.gpr_setElem (s : State) (r : VReg) (e : ElemIx) (w : Word) (i : GReg) :
    (s.setElem r e w).gpr i = s.gpr i := rfl
@[simp] theorem State.gpr_setElems (s : State) (r : VReg) (n : Nat) (f : ElemIx → Word) (i : GReg) :
    (s.setElems r n f).gpr i = s.gpr i := rfl
@[simp] theorem State.elem_setGpr (s : State) (i : GReg) (w : Word) (r : VReg) (e : ElemIx) :
    (s.setGpr i w).elem r e = s.elem r e := by
  unfold State.elem State.vreg; simp

/-- Reading a general purpose register after a write: register 0 is hardwired under `R0_IS_ZERO` (R11). -/
theorem State.gpr_setGpr (s : State) (i j : GReg) (w : Word) :
    (s.setGpr i w).gpr j =
      if j = i ∧ ¬(s.params.r0IsZero = true ∧ i = 0) then w else s.gpr j := by
  by_cases h : s.params.r0IsZero = true ∧ i = 0
  · simp [State.setGpr, h]
  · simp only [State.setGpr, h, if_false, not_false_eq_true, and_true]
    by_cases hj : j = i
    · subst hj; rw [State.gpr, if_neg h]; simp
    · have : ¬ i.toNat = j.toNat := fun c => hj (BitVec.eq_of_toNat_eq c.symm)
      simp [State.gpr, hj, this]

/-- Reading a whole vector register after a write of one. -/
theorem State.vreg_setVReg (s : State) (r r' : VReg) (f : Vector Word 64) :
    (s.setVReg r f).vreg r' = if r' = r then f else s.vreg r' := by
  by_cases h : r' = r
  · subst h; simp [State.setVReg, State.vreg]
  · have : ¬ r.toNat = r'.toNat := fun c => h (BitVec.eq_of_toNat_eq c.symm)
    simp [State.setVReg, State.vreg, h, this]

/-- Reading an element after a write of one (R80, D10). -/
theorem State.elem_setElem (s : State) (r r' : VReg) (e e' : ElemIx) (w : Word) :
    (s.setElem r e w).elem r' e' = if r' = r ∧ e' = e then w else s.elem r' e' := by
  unfold State.elem State.setElem
  rw [State.vreg_setVReg]
  by_cases h : r' = r
  · subst h
    by_cases he : e' = e
    · subst he; simp
    · have : ¬ e.val = e'.val := fun c => he (Fin.ext c.symm)
      simp [he, this]
  · simp [h]

/-- Reading an element after a write of the first `n` (R81, D10). -/
theorem State.elem_setElems (s : State) (r r' : VReg) (n : Nat) (f : ElemIx → Word) (e' : ElemIx) :
    (s.setElems r n f).elem r' e' = if r' = r ∧ e'.val < n then f e' else s.elem r' e' := by
  unfold State.setElems
  conv_lhs => unfold State.elem
  rw [State.vreg_setVReg]
  by_cases h : r' = r
  · subst h
    by_cases hn : e'.val < n <;> simp [hn, State.elem]
  · simp [h, State.elem]

/-- A write of elements changes the field `v` only. -/
theorem State.setElem_eq (s : State) (r : VReg) (e : ElemIx) (w : Word) :
    s.setElem r e w = { s with v := (s.setElem r e w).v } := rfl

theorem State.setElems_eq (s : State) (r : VReg) (n : Nat) (f : ElemIx → Word) :
    s.setElems r n f = { s with v := (s.setElems r n f).v } := rfl

/-- Two states with the same elements have the same vector registers. -/
theorem State.v_ext {s t : State} (h : ∀ r e, s.elem r e = t.elem r e) : s.v = t.v := by
  apply Vector.ext
  intro i hi
  apply Vector.ext
  intro j hj
  have := h (BitVec.ofNat 6 i) ⟨j, hj⟩
  have hi' : i % 64 = i := Nat.mod_eq_of_lt hi
  simpa [State.elem, State.vreg, hi'] using this

end Sys2Proof.Machine
end

