-- ==== Sys2Proof/Laws/Memory.lean ====
section
/-! SUPPORT. Memory: what a read after a write gives, and that every memory operation keeps the canonical form. -/

namespace Sys2Proof.Machine

@[simp] theorem Mem.read_nil (a : Nat) : Mem.read [] a = 0 := rfl

theorem Mem.read_list (k : Nat) (b : Byte) (m : Mem) (a : Nat) :
    Mem.read ((k, b) :: m) a = if k = a then b else m.read a := rfl

/-- An address below every entry reads as an unlisted one. -/
theorem Mem.read_below {m : Mem} {a : Nat} (h : ∀ c ∈ m, a < c.1) : m.read a = 0 := by
  induction m with
  | nil => rfl
  | cons c m ih =>
    obtain ⟨k, b⟩ := c
    have hk : ¬ k = a := by have := h (k, b) (by simp); simp only at this; omega
    rw [Mem.read_list, if_neg hk]
    exact ih fun c hc => h c (by simp [hc])

/-- Reading at another address does not see an entry put in front. -/
theorem Mem.read_cons_ne {m : Mem} {a a' : Nat} (b : Byte) (h : a' ≠ a) : (Mem.cons a b m).read a' = m.read a' := by
  unfold Mem.cons
  split
  · rfl
  · rw [Mem.read_list, if_neg (fun c => h c.symm)]

/-- Reading an entry put in front of higher ones. -/
theorem Mem.read_cons_self {m : Mem} {a : Nat} (b : Byte) (h : ∀ c ∈ m, a < c.1) : (Mem.cons a b m).read a = b := by
  unfold Mem.cons
  split
  · next hb => rw [hb]; exact Mem.read_below h
  · rw [Mem.read_list, if_pos rfl]

/-- A write leaves every other address as it was, in any memory. -/
theorem Mem.read_write_ne (m : Mem) {a a' : Nat} (b : Byte) (h : a' ≠ a) : (m.write a b).read a' = m.read a' := by
  induction m with
  | nil => exact Mem.read_cons_ne b h
  | cons c m ih =>
    obtain ⟨k, d⟩ := c
    unfold Mem.write
    split
    · exact Mem.read_cons_ne b h
    · split
      · next hk => subst hk; rw [Mem.read_cons_ne b h, Mem.read_list, if_neg (fun c => h c.symm)]
      · rw [Mem.read_list, Mem.read_list, ih]

/-- A read gives the byte written, in a memory of canonical form. -/
theorem Mem.read_write_self {m : Mem} (hm : m.wf) (a : Nat) (b : Byte) : (m.write a b).read a = b := by
  induction m with
  | nil => exact Mem.read_cons_self b (by simp)
  | cons c m ih =>
    obtain ⟨k, d⟩ := c
    obtain ⟨hp, hc⟩ := hm
    rw [List.pairwise_cons] at hp
    unfold Mem.write
    split
    · next hk =>
      refine Mem.read_cons_self b fun c hc' => ?_
      rcases List.mem_cons.1 hc' with rfl | h'
      · exact hk
      · have := hp.1 c h'; simp only at this; omega
    · split
      · next hk => subst hk; exact Mem.read_cons_self b hp.1
      · next hk => rw [Mem.read_list, if_neg (fun c => hk c.symm)]; exact ih ⟨hp.2, fun c h' => hc c (by simp [h'])⟩

/-- Every entry after a write is an entry from before or the one written. -/
theorem Mem.mem_write {m : Mem} {a : Nat} {b : Byte} {c : Host.Cell} (h : c ∈ m.write a b) :
    c ∈ m ∨ (c = (a, b) ∧ b ≠ 0) := by
  induction m with
  | nil =>
    unfold Mem.write Mem.cons at h
    split at h
    · simp at h
    · next hb => right; exact ⟨by simpa using h, hb⟩
  | cons d m ih =>
    obtain ⟨k, d⟩ := d
    unfold Mem.write at h
    split at h
    · unfold Mem.cons at h
      split at h
      · exact .inl h
      · next hb => exact (List.mem_cons.1 h).elim (fun h' => .inr ⟨h', hb⟩) .inl
    · split at h
      · unfold Mem.cons at h
        split at h
        · exact .inl (by simp [h])
        · next hb => exact (List.mem_cons.1 h).elim (fun h' => .inr ⟨h', hb⟩) fun h' => .inl (by simp [h'])
      · rcases List.mem_cons.1 h with h' | h'
        · simp [h']
        · exact (ih h').elim (fun h'' => .inl (by simp [h''])) .inr

/-- A write at an address of the address space keeps the canonical form. -/
theorem Mem.wf_write {m : Mem} (hm : m.wf) {a : Nat} (b : Byte) (ha : a < 2 ^ 64) : (m.write a b).wf := by
  refine ⟨?_, fun c hc => ?_⟩
  · have hp := hm.1
    clear hm
    induction m with
    | nil => unfold Mem.write Mem.cons; split <;> simp
    | cons c m ih =>
      obtain ⟨k, d⟩ := c
      have hp' := hp
      rw [List.pairwise_cons] at hp
      unfold Mem.write
      split
      · next hk =>
        unfold Mem.cons
        split
        · exact hp'
        · refine List.pairwise_cons.2 ⟨fun c hc => ?_, hp'⟩
          rcases List.mem_cons.1 hc with rfl | h'
          · exact hk
          · have := hp.1 c h'; simp only at this ⊢; omega
      · next hk1 =>
        split
        · next hk =>
          subst hk
          unfold Mem.cons
          split
          · exact hp.2
          · exact List.pairwise_cons.2 ⟨hp.1, hp.2⟩
        · next hk2 =>
          refine List.pairwise_cons.2 ⟨fun c hc => ?_, ih hp.2⟩
          rcases Mem.mem_write hc with h' | ⟨rfl, _⟩
          · exact hp.1 c h'
          · simp only; omega
  · rcases Mem.mem_write hc with h' | ⟨rfl, hb⟩
    · exact hm.2 c h'
    · exact ⟨ha, hb⟩

/-- Writing bytes inside the address space keeps the canonical form. -/
theorem Mem.wf_writeBytes {m : Mem} (hm : m.wf) {a : Nat} (bs : List Byte) (ha : a + bs.length ≤ 2 ^ 64) :
    (m.writeBytes a bs).wf := by
  induction bs generalizing m a with
  | nil => exact hm
  | cons b bs ih =>
    simp only [List.length_cons] at ha
    exact ih (Mem.wf_write hm b (by omega)) (by omega)

/-- Writing bytes leaves every address outside them as it was. -/
theorem Mem.read_writeBytes_out (m : Mem) {a a' : Nat} (bs : List Byte) (h : a' < a ∨ a + bs.length ≤ a') :
    (m.writeBytes a bs).read a' = m.read a' := by
  induction bs generalizing m a with
  | nil => rfl
  | cons b bs ih =>
    simp only [List.length_cons] at h
    unfold Mem.writeBytes
    rw [ih _ (by omega), Mem.read_write_ne _ _ (by omega)]

/-- Reading a byte of those written. -/
theorem Mem.read_writeBytes_in {m : Mem} (hm : m.wf) {a k : Nat} (bs : List Byte) (ha : a + bs.length ≤ 2 ^ 64)
    (hk : k < bs.length) : (m.writeBytes a bs).read (a + k) = bs[k] := by
  induction bs generalizing m a k with
  | nil => simp at hk
  | cons b bs ih =>
    simp only [List.length_cons] at ha hk
    unfold Mem.writeBytes
    cases k with
    | zero =>
      rw [Mem.read_writeBytes_out _ _ (by omega)]
      exact Mem.read_write_self hm a b
    | succ k =>
      have := ih (Mem.wf_write hm (a := a) b (by omega)) (a := a + 1) (k := k) (by omega) (by omega)
      rw [show a + (k + 1) = a + 1 + k by omega, this]; rfl

@[simp] theorem bytesOf64_length (w : Word) : (bytesOf64 w).length = 8 := by simp [bytesOf64]

/-- Byte `k` of a word (R32). -/
theorem bytesOf64_getElem (w : Word) {k : Nat} (h : k < (bytesOf64 w).length) :
    (bytesOf64 w)[k] = w.extractLsb' (8 * k) 8 := by simp [bytesOf64]

/-- `MemWrite` keeps the canonical form. -/
theorem Mem.wf_write64 {m : Mem} (hm : m.wf) {a : Nat} (w : Word) (ha : a + 8 ≤ 2 ^ 64) : (m.write64 a w).wf :=
  Mem.wf_writeBytes hm _ (by simpa using ha)

/-- What a byte reads after `MemWrite`: the bytes of the word, lowest first, and elsewhere what it read before (R32). -/
theorem Mem.read_write64 {m : Mem} (hm : m.wf) {a : Nat} (w : Word) (ha : a + 8 ≤ 2 ^ 64) (a' : Nat) :
    (m.write64 a w).read a' = if a ≤ a' ∧ a' < a + 8 then w.extractLsb' (8 * (a' - a)) 8 else m.read a' := by
  split
  · next h =>
    obtain ⟨k, rfl⟩ := Nat.exists_eq_add_of_le h.1
    unfold Mem.write64
    rw [Mem.read_writeBytes_in hm _ (by simpa using ha) (by simp; omega), bytesOf64_getElem]
    simp
  · next h => exact Mem.read_writeBytes_out _ _ (by simp; omega)

/-- Outside the eight bytes `MemWrite` changes nothing, in any memory. -/
theorem Mem.read_write64_out (m : Mem) {a a' : Nat} (w : Word) (h : a' < a ∨ a + 8 ≤ a') :
    (m.write64 a w).read a' = m.read a' := Mem.read_writeBytes_out _ _ (by simpa using h)

/-- Byte `k` of what `MemRead` returns is the byte at `a + k` (R32). -/
theorem Mem.read64_byte (m : Mem) (a : Nat) {k : Nat} (hk : k < 8) :
    (m.read64 a).extractLsb' (8 * k) 8 = m.read (a + k) := by
  unfold Mem.read64
  obtain rfl | rfl | rfl | rfl | rfl | rfl | rfl | rfl :
      k = 0 ∨ k = 1 ∨ k = 2 ∨ k = 3 ∨ k = 4 ∨ k = 5 ∨ k = 6 ∨ k = 7 := by omega
  all_goals
    repeat rw [BitVec.extractLsb'_append_eq_of_le (by omega)]
    first
      | exact BitVec.extractLsb'_eq_self
      | (rw [BitVec.extractLsb'_append_eq_of_add_le (by omega)]; exact BitVec.extractLsb'_eq_self)

/-- Two words with the same eight bytes are the same. -/
theorem word_ext_bytes {v w : Word} (h : ∀ k < 8, v.extractLsb' (8 * k) 8 = w.extractLsb' (8 * k) 8) : v = w := by
  apply BitVec.eq_of_getLsbD_eq
  intro i hi
  have := congrArg (fun b => b.getLsbD (i % 8)) (h (i / 8) (by omega))
  have hm : i % 8 < 8 := by omega
  have hd : 8 * (i / 8) + i % 8 = i := Nat.div_add_mod i 8
  simpa [BitVec.getLsbD_extractLsb', hm, hd] using this

/-- `MemRead` after `MemWrite` at the same address returns the word written (R39). -/
theorem Mem.read64_write64 {m : Mem} (hm : m.wf) {a : Nat} (w : Word) (ha : a + 8 ≤ 2 ^ 64) :
    (m.write64 a w).read64 a = w := by
  refine word_ext_bytes fun k hk => ?_
  rw [Mem.read64_byte _ _ hk, Mem.read_write64 hm w ha, if_pos (by omega)]
  simp

/-- The memory right after reset is in canonical form. -/
theorem reset_mem_wf : State.reset.mem.wf := by
  simp [State.reset, Mem.wf]

/-- Loading a program text keeps the canonical form (log 11). -/
theorem loadText_wf {s : State} (hs : s.mem.wf) (bytes : List Byte) : (s.loadText bytes).mem.wf := by
  have := s.pc.isLt
  exact Mem.wf_writeBytes hs _ (by simp only [List.length_take]; omega)

end Sys2Proof.Machine
end

