-- ==== Sys2Proof/Laws/Forms.lean ====
section
/-! SUPPORT. The shared operations: for each, what it answers under the conditions it tests, and everything it can do when it
answers a next state. -/

namespace Sys2Proof.Machine

/-! ## The pc -/

/-- `advance` where the pc has room. -/
theorem State.advance_eq {s : State} {n : Nat} (h : s.pc.toNat + n < 2 ^ 64) :
    s.advance n = .next { s with pc := s.pc + BitVec.ofNat 64 n } := if_pos h

/-- `advance` at the top of the address space (R18). -/
theorem State.advance_top {s : State} {n : Nat} (h : 2 ^ 64 ≤ s.pc.toNat + n) : s.advance n = .refused .pcPastTop :=
  if_neg (by omega)

/-- All that `advance` can do. -/
theorem State.advance_next {s t : State} {n : Nat} (h : s.advance n = .next t) :
    s.pc.toNat + n < 2 ^ 64 ∧ t = { s with pc := s.pc + BitVec.ofNat 64 n } := by
  unfold State.advance at h
  split at h
  · next hn => exact ⟨hn, by simpa using h.symm⟩
  · simp at h

theorem State.advance_not_fault {s : State} {n : Nat} {f : Fault} : s.advance n ≠ .fault f := by
  unfold State.advance; split <;> simp

/-- The advanced pc as a number (R18). -/
theorem pc_add_toNat {pc : Word} {n : Nat} (h : pc.toNat + n < 2 ^ 64) :
    (pc + BitVec.ofNat 64 n).toNat = pc.toNat + n := by
  rw [BitVec.toNat_add, BitVec.toNat_ofNat, Nat.mod_eq_of_lt (by omega : n < 2 ^ 64), Nat.mod_eq_of_lt h]

/-! ## The predicate and the operand tests -/

theorem State.predicated_true {s : State} {p : Pred} (n : Nat) (body : Out) (h : s.predHolds p = true) :
    s.predicated p n body = body := if_pos h

theorem State.predicated_false {s : State} {p : Pred} (n : Nat) (body : Out) (h : s.predHolds p = false) :
    s.predicated p n body = s.advance n := if_neg (by simp [h])

/-- Whatever an instruction answers, its predicate fails and it advances, or its body answers it. -/
theorem State.predicated_cases {s : State} {p : Pred} {n : Nat} {body out : Out} (h : s.predicated p n body = out) :
    (s.predHolds p = false ∧ s.advance n = out) ∨ (s.predHolds p = true ∧ body = out) := by
  unfold State.predicated at h
  split at h
  · next hp => exact .inr ⟨hp, h⟩
  · next hp => exact .inl ⟨by simpa using hp, h⟩

theorem withType_ok {t : BitVec 3} {ty : OperandType} (body : OperandType → Out) (h : operandType t = .ok ty) :
    withType t body = body ty := by unfold withType; rw [h]

theorem withType_error {t : BitVec 3} {r : Refusal} (body : OperandType → Out) (h : operandType t = .error r) :
    withType t body = .refused r := by unfold withType; rw [h]

/-- Whatever an instruction answers after its type test: it is refused, or the body answers it. -/
theorem withType_cases {t : BitVec 3} {body : OperandType → Out} {out : Out} (h : withType t body = out) :
    (∃ r, out = .refused r) ∨ ∃ ty, operandType t = .ok ty ∧ body ty = out := by
  unfold withType at h
  split at h
  · next ty hty => exact .inr ⟨ty, hty, h⟩
  · next r _ => exact .inl ⟨r, h.symm⟩

theorem State.withVRegs_ok {s : State} {rs : List VReg} (body : Out) (h : ∀ r ∈ rs, s.hasVReg r = true) :
    s.withVRegs rs body = body := if_pos (by simpa using h)

theorem State.withVRegs_missing {s : State} {rs : List VReg} (body : Out) {r : VReg} (hr : r ∈ rs)
    (h : s.hasVReg r = false) : s.withVRegs rs body = .refused .noSuchVectorRegister :=
  if_neg fun c => by simp [List.all_eq_true.1 c r hr] at h

/-- Whatever is answered after the test of the vector registers. -/
theorem State.withVRegs_cases {s : State} {rs : List VReg} {body out : Out} (h : s.withVRegs rs body = out) :
    (∃ r, out = .refused r) ∨ ((∀ r ∈ rs, s.hasVReg r = true) ∧ body = out) := by
  unfold State.withVRegs at h
  split at h
  · next hr => exact .inr ⟨by simpa using hr, h⟩
  · exact .inl ⟨_, h.symm⟩

theorem State.withIndex_ok {s : State} {r : GReg} (body : ElemIx → Out) {e : ElemIx} (he : (s.gpr r).toNat = e.val)
    (h : e.val < s.vlMax) : s.withIndex r body = body e := by
  unfold State.withIndex
  rw [dif_pos (by unfold State.vlMax at h; omega)]
  exact congrArg body (Fin.ext he)

theorem State.withIndex_out {s : State} {r : GReg} (body : ElemIx → Out) (h : s.vlMax ≤ (s.gpr r).toNat) :
    s.withIndex r body = .refused .elementIndexOutOfRange := dif_neg (by unfold State.vlMax at h; omega)

/-- Whatever is answered after the test of an index. -/
theorem State.withIndex_cases {s : State} {r : GReg} {body : ElemIx → Out} {out : Out} (h : s.withIndex r body = out) :
    (∃ why, out = .refused why) ∨ ∃ e : ElemIx, (s.gpr r).toNat = e.val ∧ e.val < s.vlMax ∧ body e = out := by
  unfold State.withIndex at h
  split at h
  · next hi => exact .inr ⟨_, rfl, by unfold State.vlMax; simp only; omega, h⟩
  · exact .inl ⟨_, h.symm⟩

theorem State.withLength_ok {s : State} {r : GReg} (body : Nat → Out) (h : (s.gpr r).toNat ≤ s.vlMax) :
    s.withLength r body = body (s.gpr r).toNat := if_pos h

theorem State.withLength_out {s : State} {r : GReg} (body : Nat → Out) (h : s.vlMax < (s.gpr r).toNat) :
    s.withLength r body = .refused .vectorLengthOutOfRange := if_neg (by omega)

/-- Whatever is answered after the test of a length. -/
theorem State.withLength_cases {s : State} {r : GReg} {body : Nat → Out} {out : Out} (h : s.withLength r body = out) :
    (∃ why, out = .refused why) ∨ ((s.gpr r).toNat ≤ s.vlMax ∧ body (s.gpr r).toNat = out) := by
  unfold State.withLength at h
  split at h
  · next hl => exact .inr ⟨hl, h⟩
  · exact .inl ⟨_, h.symm⟩

/-! ## The two templates -/

section forms
variable {s t : State} {n : Nat} {rs : List VReg} {vt : VReg} {ra : GReg} {f : ElemIx → Word}

/-- The element form where its operands pass their tests (R80). -/
theorem State.elementForm_ok {e : ElemIx} (hr : ∀ r ∈ vt :: rs, s.hasVReg r = true) (he : (s.gpr ra).toNat = e.val)
    (h : e.val < s.vlMax) (hpc : s.pc.toNat + n < 2 ^ 64) :
    s.elementForm n rs vt ra f = .next { s with pc := s.pc + BitVec.ofNat 64 n, v := (s.setElem vt e (f e)).v } := by
  unfold State.elementForm
  rw [State.withVRegs_ok _ hr, State.withIndex_ok _ he h]
  exact State.advance_eq hpc

/-- The length form where its operands pass their tests (R81). -/
theorem State.lengthForm_ok (hr : ∀ r ∈ vt :: rs, s.hasVReg r = true) (h : (s.gpr ra).toNat ≤ s.vlMax)
    (hpc : s.pc.toNat + n < 2 ^ 64) :
    s.lengthForm n rs vt ra f =
      .next { s with pc := s.pc + BitVec.ofNat 64 n, v := (s.setElems vt (s.gpr ra).toNat f).v } := by
  unfold State.lengthForm
  rw [State.withVRegs_ok _ hr, State.withLength_ok _ h]
  exact State.advance_eq hpc

/-- All that an element form can do. -/
theorem State.elementForm_cases {out : Out} (h : s.elementForm n rs vt ra f = out) :
    (∃ why, out = .refused why) ∨ ∃ e : ElemIx, (∀ r ∈ vt :: rs, s.hasVReg r = true) ∧ (s.gpr ra).toNat = e.val ∧
      e.val < s.vlMax ∧ s.pc.toNat + n < 2 ^ 64 ∧
      out = .next { s with pc := s.pc + BitVec.ofNat 64 n, v := (s.setElem vt e (f e)).v } := by
  rcases State.withVRegs_cases h with h | ⟨hr, h⟩
  · exact .inl h
  · rcases State.withIndex_cases h with h | ⟨e, he, hv, h⟩
    · exact .inl h
    · by_cases hpc : s.pc.toNat + n < 2 ^ 64
      · exact .inr ⟨e, hr, he, hv, hpc, h.symm.trans (State.advance_eq hpc)⟩
      · exact .inl ⟨_, by rw [← h]; exact State.advance_top (by simpa using hpc)⟩

/-- All that a length form can do. -/
theorem State.lengthForm_cases {out : Out} (h : s.lengthForm n rs vt ra f = out) :
    (∃ why, out = .refused why) ∨ ((∀ r ∈ vt :: rs, s.hasVReg r = true) ∧ (s.gpr ra).toNat ≤ s.vlMax ∧
      s.pc.toNat + n < 2 ^ 64 ∧
      out = .next { s with pc := s.pc + BitVec.ofNat 64 n, v := (s.setElems vt (s.gpr ra).toNat f).v }) := by
  rcases State.withVRegs_cases h with h | ⟨hr, h⟩
  · exact .inl h
  · rcases State.withLength_cases h with h | ⟨hv, h⟩
    · exact .inl h
    · by_cases hpc : s.pc.toNat + n < 2 ^ 64
      · exact .inr ⟨hr, hv, hpc, h.symm.trans (State.advance_eq hpc)⟩
      · exact .inl ⟨_, by rw [← h]; exact State.advance_top (by simpa using hpc)⟩

end forms

/-! ## Accesses -/

/-- `Translate` where nothing is given is unconstrained (R171). -/
theorem State.translate_open {s : State} (h : s.xlate = []) (seg : BitVec 3) (ea : Word) (kind : AccessKind) :
    s.translate seg ea kind =
      match Config.translate s seg ea kind with
      | .plus delta => .ok (ea + delta)
      | .lmt => .error .lmt
      | .tlb => .error .tlb := by
  have : s.xlateAnswer seg ea kind = Config.translate s seg ea kind := by unfold State.xlateAnswer; rw [h]; rfl
  unfold State.translate
  cases hc : Config.translate s seg ea kind <;> simp only [this, hc]

/-- `MemFault` where no platform is given is unconstrained, but for an access beyond the top of the space (R171). -/
theorem State.memFault_open {s : State} (h : s.access = []) (kind : AccessKind) (addr : Word) :
    s.memFault kind addr =
      match Config.memFault s kind addr with
      | some e => some e.answer
      | none => if addr.toNat + 8 ≤ 2 ^ 64 then none else some .dbe := by
  have : s.platformAnswer kind addr = (Config.memFault s kind addr).map MemExc.answer := by
    unfold State.platformAnswer; rw [h]; rfl
  unfold State.memFault; rw [this]
  cases Config.memFault s kind addr <;> rfl

/-- An access that the platform lets proceed lies inside the address space. -/
theorem State.memFault_none {s : State} {kind : AccessKind} {addr : Word} (h : s.memFault kind addr = none) :
    addr.toNat + 8 ≤ 2 ^ 64 := by
  unfold State.memFault at h
  split at h
  · simp at h
  · split at h
    · assumption
    · simp at h

/-- The access sequence where it reaches memory. -/
theorem State.accessAt_ok {s : State} {kind : AccessKind} {seg : BitVec 3} {ea addr : Word} (k : Word → Out)
    (h : s.Reaches kind seg ea addr) : s.accessAt kind seg ea k = k addr := by
  obtain ⟨ha, ht, hm⟩ := h
  unfold State.accessAt
  rw [if_neg fun c => c.2 (ha c.1), ht]
  simp only [hm]

/-- All that the access sequence can do (R172: it raises with no state changed). -/
theorem State.accessAt_cases {s : State} {kind : AccessKind} {seg : BitVec 3} {ea : Word} {k : Word → Out} {out : Out}
    (h : s.accessAt kind seg ea k = out) :
    (∃ why, out = .refused why) ∨ (∃ e addr, out = .fault (.raised e s.pc addr)) ∨
      ∃ addr, s.Reaches kind seg ea addr ∧ k addr = out := by
  unfold State.accessAt at h
  split at h
  · exact .inl ⟨_, h.symm⟩
  · next ha =>
    split at h
    · exact .inr (.inl ⟨_, _, h.symm⟩)
    · next addr ht =>
      split at h
      · exact .inr (.inl ⟨_, _, h.symm⟩)
      · exact .inr (.inl ⟨_, _, h.symm⟩)
      · exact .inl ⟨_, h.symm⟩
      · next hm => exact .inr (.inr ⟨addr, ⟨fun hr => by by_contra c; exact ha ⟨hr, c⟩, ht, hm⟩, h⟩)

/-- All that the end of a load can do. -/
theorem State.loadElem_cases {s : State} {seg : BitVec 3} {ea : Word} {vt : VReg} {e : ElemIx} {out : Out}
    (h : s.loadElem seg ea vt e = out) :
    (∃ why, out = .refused why) ∨ (∃ x addr, out = .fault (.raised x s.pc addr)) ∨
      ∃ addr, s.Reaches .load seg ea addr ∧ s.pc.toNat + 6 < 2 ^ 64 ∧
        out = .next { s with pc := s.pc + BitVec.ofNat 64 6, v := (s.setElem vt e (s.mem.read64 addr.toNat)).v } := by
  rcases State.accessAt_cases h with h | h | ⟨addr, hr, h⟩
  · exact .inl h
  · exact .inr (.inl h)
  · by_cases hpc : s.pc.toNat + 6 < 2 ^ 64
    · exact .inr (.inr ⟨addr, hr, hpc, h.symm.trans (State.advance_eq hpc)⟩)
    · exact .inl ⟨_, by rw [← h]; exact State.advance_top (by simpa using hpc)⟩

/-- All that the end of a store can do. -/
theorem State.storeElem_cases {s : State} {seg : BitVec 3} {ea : Word} {vs : VReg} {e : ElemIx} {out : Out}
    (h : s.storeElem seg ea vs e = out) :
    (∃ why, out = .refused why) ∨ (∃ x addr, out = .fault (.raised x s.pc addr)) ∨
      ∃ addr, s.Reaches .store seg ea addr ∧ s.overlapsText addr.toNat = false ∧ s.pc.toNat + 6 < 2 ^ 64 ∧
        out = .next { s with mem := s.mem.write64 addr.toNat (s.elem vs e), pc := s.pc + BitVec.ofNat 64 6 } := by
  rcases State.accessAt_cases h with h | h | ⟨addr, hr, h⟩
  · exact .inl h
  · exact .inr (.inl h)
  · split at h
    · exact .inl ⟨_, h.symm⟩
    · next ho =>
      by_cases hpc : s.pc.toNat + 6 < 2 ^ 64
      · exact .inr (.inr ⟨addr, hr, by simpa using ho, hpc, h.symm.trans (State.advance_eq hpc)⟩)
      · exact .inl ⟨_, by rw [← h]; exact State.advance_top (by simpa using hpc)⟩

/-! ## The gathered bits of V2BITS -/

/-- Bit `k` of what V2BITS gathers (R130). -/
theorem State.gatherBits_getLsbD (s : State) (va : VReg) (n : Nat) (upper : Word) (k : ElemIx) :
    (s.gatherBits va n upper).getLsbD k.val =
      if k.val < n then (s.elem va k).getLsbD 0 else upper.getLsbD k.val := by
  unfold State.gatherBits
  rw [BitVec.getLsbD_ofFnLE]
  simp

end Sys2Proof.Machine
end

