-- ==== Sys2Proof/Laws/Exec.lean ====
section
/-! SUPPORT. Everything an instruction can do, said once over all of them, for the invariants and the frames. -/

namespace Sys2Proof.Machine

/-- The instruction is a load or a store. -/
def Accesses (i : Instr) : Prop :=
  (∃ p seg disp vt rb ra, i = .vld p seg disp vt rb ra) ∨ (∃ p seg u sc vt rc rb ra, i = .vldx p seg u sc vt rc rb ra) ∨
    (∃ p seg disp vs rb ra, i = .vst p seg disp vs rb ra) ∨ ∃ p seg u sc vs rc rb ra, i = .vstx p seg u sc vs rc rb ra

/-- The instruction is a store. -/
def Stores (i : Instr) : Prop :=
  (∃ p seg disp vs rb ra, i = .vst p seg disp vs rb ra) ∨ ∃ p seg u sc vs rc rb ra, i = .vstx p seg u sc vs rc rb ra

/-- The instruction is VEX or V2BITS. -/
def WritesGpr (i : Instr) : Prop := ∃ p rt va ra, i = .vex p rt va ra ∨ i = .v2bits p rt va ra

/-- What a next state of an instruction that executes differs in. -/
inductive Effect (i : Instr) (s : State) : State → Prop where
  | elements (v : Vector (Vector Word 64) 64) : Effect i s { s with pc := s.pcAfter i, v := v }
  | gpr (h : WritesGpr i) (x : Vector Word 64) (f : Nat) : Effect i s { s with pc := s.pcAfter i, x := x, freeIx := f }
  | memory (h : Stores i) (addr w : Word) (ha : addr.toNat + 8 ≤ 2 ^ 64) (ht : s.overlapsText addr.toNat = false) :
      Effect i s { s with pc := s.pcAfter i, mem := s.mem.write64 addr.toNat w }

/-- All that an instruction can answer. -/
inductive Answers (i : Instr) (s : State) : Out → Prop where
  | refused (why : Refusal) : Answers i s (.refused why)
  | raised (h : Accesses i) (e : Exc) (addr : Option Word) : Answers i s (.fault (.raised e s.pc addr))
  | skipped (hp : s.predHolds i.pred = false) (hpc : s.pc.toNat + i.ilen < 2 ^ 64) :
      Answers i s (.next { s with pc := s.pcAfter i })
  | ran (hp : s.predHolds i.pred = true) (hv : s.HasVRegsOf i) (hpc : s.pc.toNat + i.ilen < 2 ^ 64) {t : State}
      (ht : Effect i s t) : Answers i s (.next t)

/-! ## From the operations to the answers -/

section
variable {i : Instr} {s : State} {out : Out}

/-- The predicate test leads to the answers of its body. -/
theorem answers_predicated {body : Out} (h : s.predicated i.pred i.ilen body = out)
    (hb : s.predHolds i.pred = true → body = out → Answers i s out) : Answers i s out := by
  rcases State.predicated_cases h with ⟨hp, h⟩ | ⟨hp, h⟩
  · by_cases hpc : s.pc.toNat + i.ilen < 2 ^ 64
    · rw [State.advance_eq hpc] at h; subst h; exact .skipped hp hpc
    · rw [State.advance_top (by omega)] at h; subst h; exact .refused _
  · exact hb hp h

theorem answers_withType {t : BitVec 3} {body : OperandType → Out} (h : withType t body = out)
    (hb : ∀ ty, body ty = out → Answers i s out) : Answers i s out := by
  rcases withType_cases h with ⟨r, rfl⟩ | ⟨ty, _, h⟩
  · exact .refused r
  · exact hb ty h

theorem answers_elementForm {rs : List VReg} {vt : VReg} {ra : GReg} {f : ElemIx → Word}
    (hp : s.predHolds i.pred = true) (hv : i.vregs = vt :: rs) (h : s.elementForm i.ilen rs vt ra f = out) :
    Answers i s out := by
  rcases State.elementForm_cases h with ⟨r, rfl⟩ | ⟨e, hr, _, _, hpc, rfl⟩
  · exact .refused r
  · exact .ran hp (by unfold State.HasVRegsOf; rwa [hv]) hpc (.elements _)

theorem answers_lengthForm {rs : List VReg} {vt : VReg} {ra : GReg} {f : ElemIx → Word}
    (hp : s.predHolds i.pred = true) (hv : i.vregs = vt :: rs) (h : s.lengthForm i.ilen rs vt ra f = out) :
    Answers i s out := by
  rcases State.lengthForm_cases h with ⟨r, rfl⟩ | ⟨hr, _, hpc, rfl⟩
  · exact .refused r
  · exact .ran hp (by unfold State.HasVRegsOf; rwa [hv]) hpc (.elements _)

/-- An `advance` from a state with the same pc answers that state advanced. -/
theorem answers_advance {t : State} (hp : s.predHolds i.pred = true) (hv : s.HasVRegsOf i) (hpc : t.pc = s.pc)
    (ht : Effect i s { t with pc := s.pcAfter i }) (h : t.advance i.ilen = out) : Answers i s out := by
  by_cases hn : t.pc.toNat + i.ilen < 2 ^ 64
  · rw [State.advance_eq hn] at h; subst h
    rw [hpc] at hn ⊢
    exact .ran hp hv hn ht
  · rw [State.advance_top (by omega)] at h; subst h; exact .refused _

theorem answers_loadElem {seg : BitVec 3} {ea : Word} {vt : VReg} {e : ElemIx} (hi : i.ilen = 6) (ha : Accesses i)
    (hp : s.predHolds i.pred = true) (hv : s.HasVRegsOf i) (h : s.loadElem seg ea vt e = out) : Answers i s out := by
  rcases State.loadElem_cases h with ⟨r, rfl⟩ | ⟨x, addr, rfl⟩ | ⟨addr, _, hpc, rfl⟩
  · exact .refused r
  · exact .raised ha x addr
  · rw [← hi] at hpc ⊢; exact .ran hp hv hpc (.elements _)

theorem answers_storeElem {seg : BitVec 3} {ea : Word} {vs : VReg} {e : ElemIx} (hi : i.ilen = 6) (ha : Stores i)
    (hp : s.predHolds i.pred = true) (hv : s.HasVRegsOf i) (h : s.storeElem seg ea vs e = out) : Answers i s out := by
  rcases State.storeElem_cases h with ⟨r, rfl⟩ | ⟨x, addr, rfl⟩ | ⟨addr, hr, ht, hpc, rfl⟩
  · exact .refused r
  · exact .raised (.inr (.inr ha)) x addr
  · rw [← hi] at hpc ⊢; exact .ran hp hv hpc (.memory ha addr _ (State.memFault_none hr.2.2) ht)

end

/-! ## Every instruction -/

/-- Everything an instruction can answer. -/
theorem exec_answers (i : Instr) (s : State) : Answers i s (exec i s) := by
  generalize h : exec i s = out
  cases i with
  | vadd p t vt va vb ra => exact answers_predicated h fun hp h => answers_withType h fun ty h => answers_elementForm hp rfl h
  | vaddLen p t vt va vb ra => exact answers_predicated h fun hp h => answers_withType h fun ty h => answers_lengthForm hp rfl h
  | vand p vt va vb ra => exact answers_predicated h fun hp h => answers_elementForm hp rfl h
  | vandLen p vt va vb ra => exact answers_predicated h fun hp h => answers_lengthForm hp rfl h
  | vbits2v p vt rb ra => exact answers_predicated h fun hp h => answers_lengthForm hp rfl h
  | vcmp p t vt va vb ra => exact answers_predicated h fun hp h => answers_withType h fun ty h => answers_elementForm hp rfl h
  | vcmpLen p t vt va vb ra => exact answers_predicated h fun hp h => answers_withType h fun ty h => answers_lengthForm hp rfl h
  | veins p vt rb ra => exact answers_predicated h fun hp h => answers_elementForm hp rfl h
  | veor p vt va vb ra => exact answers_predicated h fun hp h => answers_elementForm hp rfl h
  | veorLen p vt va vb ra => exact answers_predicated h fun hp h => answers_lengthForm hp rfl h
  | vdiv p t vt va vb ra => exact answers_predicated h fun hp h => answers_withType h fun ty h => answers_elementForm hp rfl h
  | vdivLen p t vt va vb ra => exact answers_predicated h fun hp h => answers_withType h fun ty h => answers_lengthForm hp rfl h
  | vex p rt va ra =>
    refine answers_predicated h fun hp h => ?_
    rcases State.withVRegs_cases h with ⟨r, rfl⟩ | ⟨hr, h⟩
    · exact .refused r
    · rcases State.withIndex_cases h with ⟨r, rfl⟩ | ⟨e, _, _, h⟩
      · exact .refused r
      · refine answers_advance hp hr (State.setGpr_pc ..) ?_ h
        rw [State.setGpr_eq]
        exact .gpr ⟨_, _, _, _, .inl rfl⟩ _ s.freeIx
  | vflt2int p vt va ra => exact answers_predicated h fun hp h => answers_lengthForm hp rfl h
  | vint2flt p vt va ra => exact answers_predicated h fun hp h => answers_lengthForm hp rfl h
  | vld p seg disp vt rb ra =>
    refine answers_predicated h fun hp h => ?_
    rcases State.withVRegs_cases h with ⟨r, rfl⟩ | ⟨hr, h⟩
    · exact .refused r
    · rcases State.withIndex_cases h with ⟨r, rfl⟩ | ⟨e, _, _, h⟩
      · exact .refused r
      · exact answers_loadElem rfl (.inl ⟨_, _, _, _, _, _, rfl⟩) hp hr h
  | vldx p seg unused sc vt rc rb ra =>
    refine answers_predicated h fun hp h => ?_
    split at h
    · subst h; exact .refused _
    · rcases State.withVRegs_cases h with ⟨r, rfl⟩ | ⟨hr, h⟩
      · exact .refused r
      · rcases State.withIndex_cases h with ⟨r, rfl⟩ | ⟨e, _, _, h⟩
        · exact .refused r
        · exact answers_loadElem rfl (.inr (.inl ⟨_, _, _, _, _, _, _, _, rfl⟩)) hp hr h
  | vmac p o sn t vt va vb vc ra =>
    refine answers_predicated h fun hp h => ?_
    split at h
    · subst h; exact .refused _
    · exact answers_withType h fun ty h => answers_elementForm hp rfl h
    · exact answers_withType h fun ty h => answers_lengthForm hp rfl h
  | vmul p t vt va vb ra => exact answers_predicated h fun hp h => answers_withType h fun ty h => answers_elementForm hp rfl h
  | vmulLen p t vt va vb ra => exact answers_predicated h fun hp h => answers_withType h fun ty h => answers_lengthForm hp rfl h
  | vor p vt va vb ra => exact answers_predicated h fun hp h => answers_elementForm hp rfl h
  | vorLen p vt va vb ra => exact answers_predicated h fun hp h => answers_lengthForm hp rfl h
  | vscale p t vt va rb ra => exact answers_predicated h fun hp h => answers_withType h fun ty h => answers_elementForm hp rfl h
  | vscaleLen p t vt va rb ra => exact answers_predicated h fun hp h => answers_withType h fun ty h => answers_lengthForm hp rfl h
  | vshl p vt va ra =>
    refine answers_predicated h fun hp h => ?_
    rcases State.withVRegs_cases h with ⟨r, rfl⟩ | ⟨hr, h⟩
    · exact .refused r
    · rcases State.withLength_cases h with ⟨r, rfl⟩ | ⟨_, h⟩
      · exact .refused r
      · split at h
        · subst h; exact .refused _
        · refine answers_advance hp hr ?_ ?_ h
          · rfl
          · exact .elements _
  | vshr p vt va ra =>
    refine answers_predicated h fun hp h => ?_
    rcases State.withVRegs_cases h with ⟨r, rfl⟩ | ⟨hr, h⟩
    · exact .refused r
    · rcases State.withLength_cases h with ⟨r, rfl⟩ | ⟨_, h⟩
      · exact .refused r
      · split at h
        · subst h; exact .refused _
        · refine answers_advance hp hr ?_ ?_ h
          · rfl
          · exact .elements _
  | vst p seg disp vs rb ra =>
    refine answers_predicated h fun hp h => ?_
    rcases State.withVRegs_cases h with ⟨r, rfl⟩ | ⟨hr, h⟩
    · exact .refused r
    · rcases State.withIndex_cases h with ⟨r, rfl⟩ | ⟨e, _, _, h⟩
      · exact .refused r
      · exact answers_storeElem rfl (.inl ⟨_, _, _, _, _, _, rfl⟩) hp hr h
  | vstx p seg unused sc vs rc rb ra =>
    refine answers_predicated h fun hp h => ?_
    split at h
    · subst h; exact .refused _
    · rcases State.withVRegs_cases h with ⟨r, rfl⟩ | ⟨hr, h⟩
      · exact .refused r
      · rcases State.withIndex_cases h with ⟨r, rfl⟩ | ⟨e, _, _, h⟩
        · exact .refused r
        · exact answers_storeElem rfl (.inr ⟨_, _, _, _, _, _, _, _, rfl⟩) hp hr h
  | vsub p t vt va vb ra => exact answers_predicated h fun hp h => answers_withType h fun ty h => answers_elementForm hp rfl h
  | vsubLen p t vt va vb ra => exact answers_predicated h fun hp h => answers_withType h fun ty h => answers_lengthForm hp rfl h
  | v2bits p rt va ra =>
    refine answers_predicated h fun hp h => ?_
    rcases State.withVRegs_cases h with ⟨r, rfl⟩ | ⟨hr, h⟩
    · exact .refused r
    · rcases State.withLength_cases h with ⟨r, rfl⟩ | ⟨_, h⟩
      · exact .refused r
      · refine answers_advance hp hr (by simp) ?_ h
        rw [State.setGpr_eq, State.v2bitsUpper_eq]
        exact .gpr ⟨_, _, _, _, .inr rfl⟩ _ _

/-- All that an instruction's next state can be: it was skipped, or it ran. -/
theorem exec_next {i : Instr} {s t : State} (h : exec i s = .next t) :
    s.pc.toNat + i.ilen < 2 ^ 64 ∧
      ((s.predHolds i.pred = false ∧ t = { s with pc := s.pcAfter i }) ∨
        (s.predHolds i.pred = true ∧ s.HasVRegsOf i ∧ Effect i s t)) := by
  have ha := exec_answers i s
  rw [h] at ha
  cases ha with
  | skipped hp hpc => exact ⟨hpc, .inl ⟨hp, rfl⟩⟩
  | ran hp hv hpc ht => exact ⟨hpc, .inr ⟨hp, hv, ht⟩⟩

end Sys2Proof.Machine
end

