-- ==== Sys2Proof/Laws/PerInstr.lean ====
section
/-! SUPPORT. Per instruction: its encoding has the instruction's length, and its word has no bit above it. -/

namespace Sys2Proof.Laws.EncodedLength

/-- The encoding is `ilen` bytes, and the word holds nothing above them (R50, R52 to R56). -/
def Statement (i : Instr) : Prop :=
  (encode i).length = i.ilen ∧ ∀ j, 8 * i.ilen ≤ j → (encodeWord i).getLsbD j = false

/-- An instruction whose word reads 0 above its length. -/
theorem of_high {i : Instr} {n m : Nat} (hn : 8 * i.ilen = n) (hm : n + m = 56)
    (h : (encodeWord i).extractLsb' n m = 0) : Statement i :=
  ⟨by simp [encode], fun _ hj => above_of_extractLsb' hm h (hn ▸ hj)⟩

theorem vadd (p : Pred) (t : BitVec 3) (vt va vb : VReg) (ra : GReg) :
    Statement (.vadd p t vt va vb ra) := of_high rfl rfl (wordV48_fields p t vt vb va ra 0x00).1

theorem vaddLen (p : Pred) (t : BitVec 3) (vt va vb : VReg) (ra : GReg) :
    Statement (.vaddLen p t vt va vb ra) := of_high rfl rfl (wordV48_fields p t vt vb va ra 0x10).1

theorem vand (p : Pred) (vt va vb : VReg) (ra : GReg) :
    Statement (.vand p vt va vb ra) := of_high rfl rfl (wordV48_fields p 0 vt vb va ra 0x08).1

theorem vandLen (p : Pred) (vt va vb : VReg) (ra : GReg) :
    Statement (.vandLen p vt va vb ra) := of_high rfl rfl (wordV48_fields p 0 vt vb va ra 0x18).1

theorem vbits2v (p : Pred) (vt : VReg) (rb ra : GReg) :
    Statement (.vbits2v p vt rb ra) := of_high rfl rfl (wordV40_fields p 0x07 vt rb ra).1

theorem vcmp (p : Pred) (t : BitVec 3) (vt va vb : VReg) (ra : GReg) :
    Statement (.vcmp p t vt va vb ra) := of_high rfl rfl (wordV48_fields p t vt vb va ra 0x06).1

theorem vcmpLen (p : Pred) (t : BitVec 3) (vt va vb : VReg) (ra : GReg) :
    Statement (.vcmpLen p t vt va vb ra) := of_high rfl rfl (wordV48_fields p t vt vb va ra 0x16).1

theorem veins (p : Pred) (vt : VReg) (rb ra : GReg) :
    Statement (.veins p vt rb ra) := of_high rfl rfl (wordV40_fields p 0x01 vt rb ra).1

theorem veor (p : Pred) (vt va vb : VReg) (ra : GReg) :
    Statement (.veor p vt va vb ra) := of_high rfl rfl (wordV48_fields p 0 vt vb va ra 0x0A).1

theorem veorLen (p : Pred) (vt va vb : VReg) (ra : GReg) :
    Statement (.veorLen p vt va vb ra) := of_high rfl rfl (wordV48_fields p 0 vt vb va ra 0x1A).1

theorem vdiv (p : Pred) (t : BitVec 3) (vt va vb : VReg) (ra : GReg) :
    Statement (.vdiv p t vt va vb ra) := of_high rfl rfl (wordV48_fields p t vt vb va ra 0x03).1

theorem vdivLen (p : Pred) (t : BitVec 3) (vt va vb : VReg) (ra : GReg) :
    Statement (.vdivLen p t vt va vb ra) := of_high rfl rfl (wordV48_fields p t vt vb va ra 0x13).1

theorem vex (p : Pred) (rt : GReg) (va : VReg) (ra : GReg) :
    Statement (.vex p rt va ra) := of_high rfl rfl (wordV40_fields p 0x00 rt va ra).1

theorem vflt2int (p : Pred) (vt va : VReg) (ra : GReg) :
    Statement (.vflt2int p vt va ra) := of_high rfl rfl (wordV40_fields p 0x04 vt va ra).1

theorem vint2flt (p : Pred) (vt va : VReg) (ra : GReg) :
    Statement (.vint2flt p vt va ra) := of_high rfl rfl (wordV40_fields p 0x05 vt va ra).1

theorem vld (p : Pred) (seg : BitVec 3) (disp : BitVec 11) (vt : VReg) (rb ra : GReg) :
    Statement (.vld p seg disp vt rb ra) := of_high rfl rfl (wordVls_fields p seg disp opcVld vt rb ra).1

theorem vldx (p : Pred) (seg unused : BitVec 3) (sc : BitVec 2) (vt : VReg) (rc rb ra : GReg) :
    Statement (.vldx p seg unused sc vt rc rb ra) := of_high rfl rfl (wordVlx_fields p seg unused sc opcVldx vt rc rb ra).1

theorem vmac (p : Pred) (o : BitVec 3) (sn : BitVec 4) (t : BitVec 3) (vt va vb vc : VReg) (ra : GReg) :
    Statement (.vmac p o sn t vt va vb vc ra) := ⟨by simp [encode], fun _ hj => BitVec.getLsbD_of_ge _ _ hj⟩

theorem vmul (p : Pred) (t : BitVec 3) (vt va vb : VReg) (ra : GReg) :
    Statement (.vmul p t vt va vb ra) := of_high rfl rfl (wordV48_fields p t vt vb va ra 0x02).1

theorem vmulLen (p : Pred) (t : BitVec 3) (vt va vb : VReg) (ra : GReg) :
    Statement (.vmulLen p t vt va vb ra) := of_high rfl rfl (wordV48_fields p t vt vb va ra 0x12).1

theorem vor (p : Pred) (vt va vb : VReg) (ra : GReg) :
    Statement (.vor p vt va vb ra) := of_high rfl rfl (wordV48_fields p 0 vt vb va ra 0x09).1

theorem vorLen (p : Pred) (vt va vb : VReg) (ra : GReg) :
    Statement (.vorLen p vt va vb ra) := of_high rfl rfl (wordV48_fields p 0 vt vb va ra 0x19).1

theorem vscale (p : Pred) (t : BitVec 3) (vt va : VReg) (rb ra : GReg) :
    Statement (.vscale p t vt va rb ra) := of_high rfl rfl (wordV48_fields p t vt va rb ra 0x05).1

theorem vscaleLen (p : Pred) (t : BitVec 3) (vt va : VReg) (rb ra : GReg) :
    Statement (.vscaleLen p t vt va rb ra) := of_high rfl rfl (wordV48_fields p t vt va rb ra 0x15).1

theorem vshl (p : Pred) (vt va : VReg) (ra : GReg) :
    Statement (.vshl p vt va ra) := of_high rfl rfl (wordV40_fields p 0x02 vt va ra).1

theorem vshr (p : Pred) (vt va : VReg) (ra : GReg) :
    Statement (.vshr p vt va ra) := of_high rfl rfl (wordV40_fields p 0x03 vt va ra).1

theorem vst (p : Pred) (seg : BitVec 3) (disp : BitVec 11) (vs : VReg) (rb ra : GReg) :
    Statement (.vst p seg disp vs rb ra) := of_high rfl rfl (wordVls_fields p seg disp opcVst vs rb ra).1

theorem vstx (p : Pred) (seg unused : BitVec 3) (sc : BitVec 2) (vs : VReg) (rc rb ra : GReg) :
    Statement (.vstx p seg unused sc vs rc rb ra) := of_high rfl rfl (wordVlx_fields p seg unused sc opcVstx vs rc rb ra).1

theorem vsub (p : Pred) (t : BitVec 3) (vt va vb : VReg) (ra : GReg) :
    Statement (.vsub p t vt va vb ra) := of_high rfl rfl (wordV48_fields p t vt vb va ra 0x01).1

theorem vsubLen (p : Pred) (t : BitVec 3) (vt va vb : VReg) (ra : GReg) :
    Statement (.vsubLen p t vt va vb ra) := of_high rfl rfl (wordV48_fields p t vt vb va ra 0x11).1

theorem v2bits (p : Pred) (rt : GReg) (va : VReg) (ra : GReg) :
    Statement (.v2bits p rt va ra) := of_high rfl rfl (wordV40_fields p 0x06 rt va ra).1

end Sys2Proof.Laws.EncodedLength
end

