-- ==== Sys2Proof/Tests/Slice0.lean ====
section
/-! SUPPORT. The model's own tests: the well-formedness checks, decoding of words written out field by field, the spec's test
vectors (95_test_vectors.md), and a witness for the hypotheses of each obligation that has any. -/

namespace Sys2Proof.Tests

open Sys2Proof Sys2Proof.Machine

/-! ## Helpers -/

/-- The predicate byte 01h: `Pn4` = 0, `Pc4` = 1. -/
abbrev p01 : Pred := ⟨0, 1⟩

/-- A next state, and the state itself. -/
def isNext : Out → Bool
  | .next _ => true
  | _ => false

def after : Out → State
  | .next t => t
  | _ => State.reset

def refusalOf : Out → Option Refusal
  | .refused r => some r
  | _ => none

def faultOf : Out → Option Fault
  | .fault f => some f
  | _ => none

/-- The reset state with these general purpose registers. -/
def regs (l : List (GReg × Word)) : State := l.foldl (fun s c => s.setGpr c.1 c.2) State.reset

/-- A state with these elements. -/
def State.withElems (s : State) (l : List (VReg × ElemIx × Word)) : State :=
  l.foldl (fun s c => s.setElem c.1 c.2.1 c.2.2) s

/-- `v1` and `v2` with one element each at the index in `x[5]`. -/
def pair (e : ElemIx) (a b : Word) : State :=
  State.withElems (regs [(5, BitVec.ofNat 64 e.val)]) [(1, e, a), (2, e, b)]

/-- `v1` and `v2` with two elements each, and the length 2 in `x[5]`. -/
def pairs (a0 a1 b0 b1 : Word) : State :=
  State.withElems (regs [(5, 2)]) [(1, 0, a0), (1, 1, a1), (2, 0, b0), (2, 1, b1)]

theorem next_after {o : Out} (h : isNext o = true) : o = .next (after o) := by
  cases o <;> simp_all [isNext, after]

theorem fault_of {o : Out} {f : Fault} (h : faultOf o = some f) : o = .fault f := by
  cases o <;> simp_all [faultOf]

/-! ## Well-formedness -/

theorem test_wellFormed : (Instr.vadd p01 4 3 1 2 5).wellFormed = true ∧ (Instr.vldx p01 0 0 3 3 5 7 6).wellFormed = true := by
  decide
/-- An unlisted type (R59, U1). -/
theorem test_illFormed_type : (Instr.vadd p01 3 3 1 2 5).wellFormed = false ∧ (Instr.vmac p01 0 0 7 4 1 2 3 5).wellFormed = false := by
  decide
/-- Unused bits that are not 0 (R63, U6). -/
theorem test_illFormed_unused :
    (Instr.vldx p01 0 1 3 3 5 7 6).wellFormed = false ∧ (Instr.vstx p01 0 4 3 3 5 7 6).wellFormed = false := by decide

/-! ## Decoding: words written out field by field, the highest bits first -/

/-- R53: Func5, T3, Vt6, Vb6, Va6, Ra6, opcode, Pn4, Pc4; the function codes of R57. -/
theorem test_decode_57_typed :
    decodeTableWord 48 (0b00000#5 ++ 0b010#3 ++ 3#6 ++ 2#6 ++ 1#6 ++ 5#6 ++ 0x57#8 ++ 0#4 ++ 1#4).toNat = some (.vadd p01 2 3 1 2 5) ∧
    decodeTableWord 48 (0b10000#5 ++ 0b001#3 ++ 3#6 ++ 2#6 ++ 1#6 ++ 5#6 ++ 0x57#8 ++ 0#4 ++ 1#4).toNat = some (.vaddLen p01 1 3 1 2 5) ∧
    decodeTableWord 48 (0b00001#5 ++ 0b000#3 ++ 3#6 ++ 2#6 ++ 1#6 ++ 5#6 ++ 0x57#8 ++ 2#4 ++ 5#4).toNat = some (.vsub ⟨2, 5⟩ 0 3 1 2 5) ∧
    decodeTableWord 48 (0b10001#5 ++ 0b000#3 ++ 3#6 ++ 2#6 ++ 1#6 ++ 5#6 ++ 0x57#8 ++ 0#4 ++ 1#4).toNat = some (.vsubLen p01 0 3 1 2 5) ∧
    decodeTableWord 48 (0b00010#5 ++ 0b000#3 ++ 3#6 ++ 2#6 ++ 1#6 ++ 5#6 ++ 0x57#8 ++ 0#4 ++ 1#4).toNat = some (.vmul p01 0 3 1 2 5) ∧
    decodeTableWord 48 (0b10010#5 ++ 0b000#3 ++ 3#6 ++ 2#6 ++ 1#6 ++ 5#6 ++ 0x57#8 ++ 0#4 ++ 1#4).toNat = some (.vmulLen p01 0 3 1 2 5) ∧
    decodeTableWord 48 (0b00011#5 ++ 0b000#3 ++ 3#6 ++ 2#6 ++ 1#6 ++ 5#6 ++ 0x57#8 ++ 0#4 ++ 1#4).toNat = some (.vdiv p01 0 3 1 2 5) ∧
    decodeTableWord 48 (0b10011#5 ++ 0b000#3 ++ 3#6 ++ 2#6 ++ 1#6 ++ 5#6 ++ 0x57#8 ++ 0#4 ++ 1#4).toNat = some (.vdivLen p01 0 3 1 2 5) ∧
    decodeTableWord 48 (0b00110#5 ++ 0b000#3 ++ 3#6 ++ 2#6 ++ 1#6 ++ 5#6 ++ 0x57#8 ++ 0#4 ++ 1#4).toNat = some (.vcmp p01 0 3 1 2 5) ∧
    decodeTableWord 48 (0b10110#5 ++ 0b000#3 ++ 3#6 ++ 2#6 ++ 1#6 ++ 5#6 ++ 0x57#8 ++ 0#4 ++ 1#4).toNat = some (.vcmpLen p01 0 3 1 2 5) := by
  decide

/-- VSCALE: Func5, T3, Vt6, Va6, Rb6, Ra6; the logical instructions: the constant 0 in bits 42:40 (R53, R57). -/
theorem test_decode_57_scale_logical :
    decodeTableWord 48 (0b00101#5 ++ 0b000#3 ++ 3#6 ++ 1#6 ++ 7#6 ++ 5#6 ++ 0x57#8 ++ 0#4 ++ 1#4).toNat = some (.vscale p01 0 3 1 7 5) ∧
    decodeTableWord 48 (0b10101#5 ++ 0b000#3 ++ 3#6 ++ 1#6 ++ 7#6 ++ 5#6 ++ 0x57#8 ++ 0#4 ++ 1#4).toNat = some (.vscaleLen p01 0 3 1 7 5) ∧
    decodeTableWord 48 (0b01000#5 ++ 0b000#3 ++ 3#6 ++ 2#6 ++ 1#6 ++ 5#6 ++ 0x57#8 ++ 0#4 ++ 1#4).toNat = some (.vand p01 3 1 2 5) ∧
    decodeTableWord 48 (0b11000#5 ++ 0b000#3 ++ 3#6 ++ 2#6 ++ 1#6 ++ 5#6 ++ 0x57#8 ++ 0#4 ++ 1#4).toNat = some (.vandLen p01 3 1 2 5) ∧
    decodeTableWord 48 (0b01001#5 ++ 0b000#3 ++ 3#6 ++ 2#6 ++ 1#6 ++ 5#6 ++ 0x57#8 ++ 0#4 ++ 1#4).toNat = some (.vor p01 3 1 2 5) ∧
    decodeTableWord 48 (0b11001#5 ++ 0b000#3 ++ 3#6 ++ 2#6 ++ 1#6 ++ 5#6 ++ 0x57#8 ++ 0#4 ++ 1#4).toNat = some (.vorLen p01 3 1 2 5) ∧
    decodeTableWord 48 (0b01010#5 ++ 0b000#3 ++ 3#6 ++ 2#6 ++ 1#6 ++ 5#6 ++ 0x57#8 ++ 0#4 ++ 1#4).toNat = some (.veor p01 3 1 2 5) ∧
    decodeTableWord 48 (0b11010#5 ++ 0b000#3 ++ 3#6 ++ 2#6 ++ 1#6 ++ 5#6 ++ 0x57#8 ++ 0#4 ++ 1#4).toNat = some (.veorLen p01 3 1 2 5) := by
  decide

/-- R52: Func6 and three register fields; the function codes of R58, and 07h for VBITS2V. -/
theorem test_decode_56 :
    decodeTableWord 40 (0b000000#6 ++ 4#6 ++ 1#6 ++ 5#6 ++ 0x56#8 ++ 0#4 ++ 1#4).toNat = some (.vex p01 4 1 5) ∧
    decodeTableWord 40 (0b000001#6 ++ 3#6 ++ 7#6 ++ 5#6 ++ 0x56#8 ++ 0#4 ++ 1#4).toNat = some (.veins p01 3 7 5) ∧
    decodeTableWord 40 (0b000010#6 ++ 3#6 ++ 1#6 ++ 5#6 ++ 0x56#8 ++ 0#4 ++ 1#4).toNat = some (.vshl p01 3 1 5) ∧
    decodeTableWord 40 (0b000011#6 ++ 3#6 ++ 1#6 ++ 5#6 ++ 0x56#8 ++ 0#4 ++ 1#4).toNat = some (.vshr p01 3 1 5) ∧
    decodeTableWord 40 (0b000100#6 ++ 3#6 ++ 1#6 ++ 5#6 ++ 0x56#8 ++ 0#4 ++ 1#4).toNat = some (.vflt2int p01 3 1 5) ∧
    decodeTableWord 40 (0b000101#6 ++ 3#6 ++ 1#6 ++ 5#6 ++ 0x56#8 ++ 0#4 ++ 1#4).toNat = some (.vint2flt p01 3 1 5) ∧
    decodeTableWord 40 (0b000110#6 ++ 4#6 ++ 1#6 ++ 5#6 ++ 0x56#8 ++ 0#4 ++ 1#4).toNat = some (.v2bits p01 4 1 5) ∧
    decodeTableWord 40 (0b000111#6 ++ 3#6 ++ 7#6 ++ 5#6 ++ 0x56#8 ++ 0#4 ++ 1#4).toNat = some (.vbits2v p01 3 7 5) := by
  decide

/-- R54: Seg3, Displacement11, V, Rb6, Ra6. R55: Seg3, unused, Sc2, V, Rc6, Rb6, Ra6. -/
theorem test_decode_loads_stores :
    decodeTableWord 48 (2#3 ++ 0x7F8#11 ++ 3#6 ++ 5#6 ++ 6#6 ++ 0x89#8 ++ 0#4 ++ 1#4).toNat = some (.vld p01 2 0x7F8 3 5 6) ∧
    decodeTableWord 48 (7#3 ++ 0x010#11 ++ 3#6 ++ 5#6 ++ 6#6 ++ 0x99#8 ++ 0#4 ++ 1#4).toNat = some (.vst p01 7 16 3 5 6) ∧
    decodeTableWord 48 (1#3 ++ 0#3 ++ 3#2 ++ 3#6 ++ 5#6 ++ 7#6 ++ 6#6 ++ 0xB9#8 ++ 0#4 ++ 1#4).toNat = some (.vldx p01 1 0 3 3 5 7 6) ∧
    decodeTableWord 48 (1#3 ++ 5#3 ++ 3#2 ++ 3#6 ++ 5#6 ++ 7#6 ++ 6#6 ++ 0xC9#8 ++ 0#4 ++ 1#4).toNat = some (.vstx p01 1 5 3 3 5 7 6) := by
  decide

/-- R56: O3, Sn4, T3, Vt6, Vc6, Vb6, Va6, Ra6. -/
theorem test_decode_vmac :
    decodeTableWord 56 (5#3 ++ 9#4 ++ 2#3 ++ 4#6 ++ 3#6 ++ 2#6 ++ 1#6 ++ 5#6 ++ 0x5A#8 ++ 0#4 ++ 1#4).toNat =
      some (.vmac p01 5 9 2 4 1 2 3 5) := by decide

/-- Vectors E1, B6 and T22: every field at its maximum; 06h is V2BITS; 89h is VLD. -/
theorem test_decode_E1_B6_T22 :
    decodeTableWord 48 0x00FFFFFF57FF = some (.vadd ⟨15, 15⟩ 0 63 63 63 63) ∧
    decodeTableWord 40 0x1831C55601 = some (.v2bits p01 3 7 5) ∧
    decodeTableWord 48 0x004031468901 = some (.vld p01 0 16 3 5 6) := by decide

/-- Vectors E6, E7 and E8: unassigned encodings, and an opcode of the base ISA. -/
theorem test_decode_unassigned :
    decodeTableWord 48 0x410C20455701 = none ∧ decodeTableWord 48 0x200C20455701 = none ∧
    decodeTableWord 40 0x2030455601 = none ∧ decodeTableWord 48 0x0201 = none := by decide

/-! ## The step -/

/-- Vector Q1 as a step: the predicate of byte 25h does not hold, the index in `x[5]` is not looked at, `pc + 6`. -/
theorem test_step_Q1 : let s := (regs [(5, 99)]).withFetchWord 48 0x000C20455725
    (after (step s)).pc = 6 ∧ isNext (step s) = true ∧ (after (step s)).v = s.v := by decide
/-- Vector A1 as a step. -/
theorem test_step_A1 : let s := (State.withElems (regs [(5, 2)]) [(1, 2, 7), (2, 2, 5), (3, 1, 99)]).withFetchWord 48 0x000C20455701
    ((after (step s)).elem 3 2, (after (step s)).elem 3 1, (after (step s)).pc) = (12, 99, 6) := by decide
/-- With no program the run ends at once (R196); bytes of no instruction are refused (R62). -/
theorem test_step_refusals : refusalOf (step State.reset) = some .endOfRun ∧
    refusalOf (step (State.reset.withFetchWord 48 0x200C20455701)) = some (.undecodable (.unassignedFunc5 4)) := by decide

/-! ## Opcode 57h -/

/-- A2, A4, A5. -/
theorem test_vadd_wraps : (after (exec (.vadd p01 0 3 1 2 5) (pair 0 0xFFFFFFFFFFFFFFFF 1))).elem 3 0 = 0 := by decide
theorem test_vadd_index : refusalOf (exec (.vadd p01 0 3 1 2 5) (regs [(5, 8)])) = some .elementIndexOutOfRange ∧
    refusalOf (exec (.vadd p01 0 3 1 2 5) (regs [(5, 0xFFFFFFFFFFFFFFFF)])) = some .elementIndexOutOfRange := by decide
/-- A11, A10. -/
theorem test_vaddLen_alias : let t := after (exec (.vaddLen p01 0 1 1 1 5) (pairs 3 4 0 0))
    (t.elem 1 0, t.elem 1 1) = (6, 8) := by decide
theorem test_vaddLen_length : refusalOf (exec (.vaddLen p01 0 3 1 2 5) (regs [(5, 9)])) = some .vectorLengthOutOfRange := by decide
/-- S2, S3. -/
theorem test_vsub : (after (exec (.vsub p01 0 3 1 2 5) (pair 0 0 1))).elem 3 0 = 0xFFFFFFFFFFFFFFFF := by decide
theorem test_vsubLen : let t := after (exec (.vsubLen p01 0 3 1 2 5) (pairs 5 5 7 5))
    (t.elem 3 0, t.elem 3 1) = (0xFFFFFFFFFFFFFFFE, 0) := by decide
/-- M2, M3, M4. -/
theorem test_vmul_low : (after (exec (.vmul p01 0 3 1 2 5) (pair 0 0x0000000100000000 0x0000000100000000))).elem 3 0 = 0 := by decide
theorem test_vmul_negative :
    (after (exec (.vmul p01 0 3 1 2 5) (pair 0 0xFFFFFFFFFFFFFFFF 5))).elem 3 0 = 0xFFFFFFFFFFFFFFFB := by decide
theorem test_vmulLen : let t := after (exec (.vmulLen p01 0 3 1 2 5) (pairs 2 3 4 5))
    (t.elem 3 0, t.elem 3 1) = (8, 15) := by decide
/-- D2, D3. -/
theorem test_vdiv_truncates :
    (after (exec (.vdiv p01 0 3 1 2 5) (pair 0 0xFFFFFFFFFFFFFFF9 2))).elem 3 0 = 0xFFFFFFFFFFFFFFFD ∧
    (after (exec (.vdiv p01 0 3 1 2 5) (pair 0 7 0xFFFFFFFFFFFFFFFE))).elem 3 0 = 0xFFFFFFFFFFFFFFFD := by decide
/-- A zero divisor completes (log 13); the first quotient is that of D6. -/
theorem test_vdivLen_zero : let o := exec (.vdivLen p01 0 3 1 2 5) (pairs 10 10 2 0)
    isNext o = true ∧ (after o).elem 3 0 = 5 ∧ (after o).pc = 6 := by decide
/-- K1, K3. -/
theorem test_vscale : (after (exec (.vscale p01 0 3 1 7 5) (State.withElems (regs [(5, 1), (7, 3)]) [(1, 1, 14)]))).elem 3 1 = 42 := by
  decide
theorem test_vscaleLen : let t := after (exec (.vscaleLen p01 0 3 1 5 5) (pairs 4 5 0 0))
    (t.elem 3 0, t.elem 3 1) = (8, 10) := by decide
/-- C4, C5. -/
theorem test_vcmp_signed :
    (after (exec (.vcmp p01 0 3 1 2 5) (pair 0 0xFFFFFFFFFFFFFFFE 1))).elem 3 0 = 0xFFFFFFFFFFFFFFFF := by decide
theorem test_vcmpLen : let t := after (exec (.vcmpLen p01 0 3 1 2 5) (pairs 5 9 5 5))
    (t.elem 3 0, t.elem 3 1) = (0, 1) := by decide
/-- L1 to L6. -/
theorem test_vand : (after (exec (.vand p01 3 1 2 5) (pair 0 0xFF00FF00FF00FF00 0x0FF00FF00FF00FF0))).elem 3 0 =
    0x0F000F000F000F00 := by decide
theorem test_vandLen : let t := after (exec (.vandLen p01 3 1 2 5) (pairs 12 10 10 6))
    (t.elem 3 0, t.elem 3 1) = (8, 2) := by decide
theorem test_vor : (after (exec (.vor p01 3 1 2 5) (pair 0 0xFF00FF00FF00FF00 0x0FF00FF00FF00FF0))).elem 3 0 =
    0xFFF0FFF0FFF0FFF0 := by decide
theorem test_vorLen : let t := after (exec (.vorLen p01 3 1 2 5) (pairs 12 10 10 6))
    (t.elem 3 0, t.elem 3 1) = (14, 14) := by decide
theorem test_veor : (after (exec (.veor p01 3 1 2 5) (pair 0 0xFF00FF00FF00FF00 0x0FF00FF00FF00FF0))).elem 3 0 =
    0xF0F0F0F0F0F0F0F0 := by decide
theorem test_veorLen : let t := after (exec (.veorLen p01 3 1 2 5) (pairs 12 10 10 6))
    (t.elem 3 0, t.elem 3 1) = (6, 12) := by decide
/-- E4, E5: a reserved type and Float Quad. -/
theorem test_types_refused : refusalOf (exec (.vadd p01 3 3 1 2 5) State.reset) = some (.reservedType 3) ∧
    refusalOf (exec (.vadd p01 4 3 1 2 5) State.reset) = some .floatQuad := by decide

/-! ## Opcode 56h -/

/-- X2, X3. -/
theorem test_vex : (after (exec (.vex p01 5 1 5) (State.withElems (regs [(5, 3)]) [(1, 3, 0x8000000000000001)]))).gpr 5 =
    0x8000000000000001 := by decide
theorem test_vex_index : refusalOf (exec (.vex p01 4 1 5) (regs [(5, 8)])) = some .elementIndexOutOfRange := by decide
/-- I1, I2. -/
theorem test_veins : let t := after (exec (.veins p01 3 7 5) (regs [(5, 2), (7, 0xDEADBEEF00000001)]))
    (t.elem 3 2, t.elem 3 1, t.pc) = (0xDEADBEEF00000001, 0, 5) := by decide
theorem test_veins_own_index : (after (exec (.veins p01 3 5 5) (regs [(5, 6)]))).elem 3 6 = 6 := by decide
/-- H5, H2 with H4. -/
theorem test_vshl_snapshot :
    let t := after (exec (.vshl p01 3 3 5) (State.withElems (regs [(5, 3)]) [(3, 0, 1), (3, 1, 2), (3, 2, 3), (3, 3, 4)]))
    (t.elem 3 0, t.elem 3 1, t.elem 3 2, t.elem 3 3) = (0, 1, 2, 3) := by decide
theorem test_vshl_bounds :
    (let t := after (exec (.vshl p01 3 1 5) (State.withElems (regs [(5, 0)]) [(3, 0, 9), (3, 1, 8)]))
     (t.elem 3 0, t.elem 3 1) = (0, 8)) ∧
    refusalOf (exec (.vshl p01 3 1 5) (regs [(5, 8)])) = some .shiftPastLastElement := by decide
/-- H6, H7 with H8. -/
theorem test_vshr :
    let t := after (exec (.vshr p01 3 1 5) (State.withElems (regs [(5, 3)]) [(1, 0, 11), (1, 1, 22), (1, 2, 33), (3, 3, 55)]))
    (t.elem 3 0, t.elem 3 1, t.elem 3 2, t.elem 3 3) = (22, 33, 0, 55) := by decide
theorem test_vshr_bounds :
    (after (exec (.vshr p01 3 1 5) (State.withElems (regs [(5, 1)]) [(1, 0, 9), (1, 1, 8), (3, 0, 7)]))).elem 3 0 = 0 ∧
    refusalOf (exec (.vshr p01 3 1 5) (regs [(5, 0)])) = some .shiftOfNoElements := by decide
/-- F3, and the pc of F1 and F2. -/
theorem test_vflt2int : let s := regs [(5, 0)]
    (after (exec (.vflt2int p01 3 1 5) s)).v = s.v ∧ (after (exec (.vflt2int p01 3 1 5) (regs [(5, 2)]))).pc = 5 := by decide
theorem test_vint2flt : let s := regs [(5, 0)]
    (after (exec (.vint2flt p01 3 1 5) s)).v = s.v ∧ (after (exec (.vint2flt p01 3 1 5) (regs [(5, 1)]))).pc = 5 := by decide
set_option maxRecDepth 4000 in
/-- B1 under `zero`: the low four bits, and the highest. -/
theorem test_v2bits :
    let s := State.withElems (regs [(5, 4), (4, 0xFFFFFFFFFFFFFFFF)]) [(1, 0, 1), (1, 2, 3), (1, 3, 2)]
    (after (exec (.v2bits p01 4 1 5) s)).gpr 4 = 5 := by decide
/-- Under `any` the bits above come from a free draw, and the counter of free draws advances (log 16). -/
theorem test_v2bits_any :
    let s := regs [(5, 4)]
    (after (exec (.v2bits p01 4 1 5) { s with params := { s.params with v2bitsUpper := .any } })).freeIx = 1 := by decide
/-- B4. -/
theorem test_vbits2v : let t := after (exec (.vbits2v p01 3 7 5) (regs [(5, 4), (7, 0xFFFFFFFFFFFFFFF5)]))
    (t.elem 3 0, t.elem 3 1, t.elem 3 2, t.elem 3 3, t.elem 3 4) = (1, 0, 1, 0, 0) := by decide

/-! ## Loads and stores -/

/-- `x[5]` and `x[6]`, and the eight bytes of T1 in memory at 1010h. -/
def memState (x5 x6 : Word) : State :=
  { regs [(5, x5), (6, x6)] with mem := [(0x1010, 0x88), (0x1011, 0x77), (0x1012, 0x66), (0x1013, 0x55), (0x1014, 0x44),
      (0x1015, 0x33), (0x1016, 0x22), (0x1017, 0x11)] }

/-- T1; a negative displacement as in T2. -/
theorem test_vld : (after (exec (.vld p01 0 16 3 5 6) (memState 2 0x1000))).elem 3 2 = 0x1122334455667788 := by decide
theorem test_vld_negative : (after (exec (.vld p01 0 0x7FF 3 5 6) (memState 0 0x1011))).elem 3 0 = 0x1122334455667788 := by decide
/-- T16 and T20 with the bytes at 1010h. -/
theorem test_vldx : let s := (memState 3 0x1000).setGpr 7 2
    (after (exec (.vldx p01 0 0 3 3 5 7 6) s)).elem 3 3 = 0x1122334455667788 := by decide
theorem test_vldx_wraps : let s := (memState 0 0x1018).setGpr 7 0xFFFFFFFFFFFFFFFF
    (after (exec (.vldx p01 0 0 3 3 5 7 6) s)).elem 3 0 = 0x1122334455667788 := by decide
/-- T11. -/
theorem test_vst : (after (exec (.vst p01 0 16 3 5 6) (State.withElems (regs [(5, 2), (6, 0x1000)]) [(3, 2, 0x1122334455667788)]))).mem =
    (memState 2 0x1000).mem := by decide
/-- T21; a zero byte is not listed. -/
theorem test_vstx :
    (after (exec (.vstx p01 0 0 3 3 5 7 6) (State.withElems (regs [(5, 3), (6, 0x2000), (7, 3)]) [(3, 3, 0x0100030405060708)]))).mem =
      [(0x2018, 0x08), (0x2019, 0x07), (0x201A, 0x06), (0x201B, 0x05), (0x201C, 0x04), (0x201D, 0x03), (0x201F, 0x01)] := by decide
/-- T13 for a store, and T8 with the missing memory as a rule of the platform: the fault names the pc. -/
theorem test_access_faults :
    faultOf (exec (.vst p01 0 16 3 5 6) { memState 2 0x1000 with xlate := [⟨some 0, some .store, 0x1000, 0x1FFF, .lmt⟩], pc := 6 }) =
      some (.raised .lmt 6 none) ∧
    faultOf (exec (.vld p01 0 16 3 5 6) { memState 2 0x3000 with access := [⟨some .load, 0x2040, 0xFFFFFFFFFFFFFFFF, some .dbe⟩], pc := 6 }) =
      some (.raised .dbe 6 (some 0x3010)) := by decide
/-- T6 under `MISALIGNED = refuse`, E9, and a store to the program text (U24). -/
theorem test_access_refusals :
    refusalOf (exec (.vld p01 0 16 3 5 6)
      (let s := memState 2 0x1001
       { s with params := { s.params with misaligned := .refuse } })) = some .misalignedAccess ∧
    refusalOf (exec (.vldx p01 0 1 3 3 5 7 6) State.reset) = some .unusedBitsSet ∧
    refusalOf (exec (.vst p01 0 16 3 5 6) { memState 2 0x1000 with textBase := 0x1017, textSize := 6 }) =
      some .storeToProgramText := by decide

/-! ## VMAC -/

/-- `a` = 3, `b` = 4, `c` = 5 in element 0. -/
def macState : State := State.withElems (regs [(5, 0)]) [(1, 0, 3), (2, 0, 4), (3, 0, 5)]

/-- V1 to V7. -/
theorem test_vmac_signs : [0, 1, 2, 3, 4, 8, 15].map (fun sn => (after (exec (.vmac p01 0 sn 0 4 1 2 3 5) macState)).elem 4 0) =
    [0x11, 0xFFFFFFFFFFFFFFF9, 0xFFFFFFFFFFFFFFF9, 0x11, 7, 0xFFFFFFFFFFFFFFEF, 0xFFFFFFFFFFFFFFF9] := by decide
/-- The length form where `VMAC_O(1)` is `length`; E10 where it is reserved. -/
theorem test_vmac_forms :
    (let s := State.withElems (pairs 3 6 4 7) [(3, 0, 5), (3, 1, 8)]
     let t := after (exec (.vmac p01 1 0 0 4 1 2 3 5) { s with params := { s.params with vmacO := s.params.vmacO.set 1 .length } })
     (t.elem 4 0, t.elem 4 1, t.pc) = (17, 50, 7)) ∧
    refusalOf (exec (.vmac p01 1 0 0 4 1 2 3 5) macState) = some (.vmacFormReserved 1) := by decide

/-! ## Witnesses: a state and operands that meet the hypotheses of each obligation, at the ends of the ranges -/

/-- The hypotheses of an element form. -/
abbrev ElementHyps (i : Instr) (ra : GReg) (s : State) (e : ElemIx) : Prop :=
  s.Runs i ∧ s.HasVRegsOf i ∧ (s.gpr ra).toNat = e.val ∧ e.val < s.vlMax

/-- The hypotheses of a length form. -/
abbrev LengthHyps (i : Instr) (ra : GReg) (s : State) : Prop :=
  s.Runs i ∧ s.HasVRegsOf i ∧ (s.gpr ra).toNat ≤ s.vlMax

/-- The first and the last element index, and the shortest and the longest length. -/
abbrev ElementEnds (i : Instr) : Prop := ElementHyps i 5 (regs [(5, 0)]) 0 ∧ ElementHyps i 5 (regs [(5, 7)]) 7
abbrev LengthEnds (i : Instr) : Prop := LengthHyps i 5 (regs [(5, 0)]) ∧ LengthHyps i 5 (regs [(5, 8)])

/-- The two pairs of hypotheses, to be evaluated. -/
def elementEndsHold (i : Instr) : Bool :=
  [(0 : ElemIx), 7].all fun e =>
    let s := regs [(5, BitVec.ofNat 64 e.val)]
    s.predHolds i.pred && decide (s.pc.toNat + i.ilen < 2 ^ 64) && i.vregs.all s.hasVReg && (s.gpr 5).toNat == e.val &&
      decide (e.val < s.vlMax)
def lengthEndsHold (i : Instr) : Bool :=
  [(0 : Word), 8].all fun n =>
    let s := regs [(5, n)]
    s.predHolds i.pred && decide (s.pc.toNat + i.ilen < 2 ^ 64) && i.vregs.all s.hasVReg && decide ((s.gpr 5).toNat ≤ s.vlMax)

theorem elementEnds {i : Instr} (h : elementEndsHold i = true) : ElementEnds i := by
  simpa [elementEndsHold, ElementEnds, ElementHyps, State.Runs, State.HasVRegsOf, and_assoc] using h
theorem lengthEnds {i : Instr} (h : lengthEndsHold i = true) : LengthEnds i := by
  simpa [lengthEndsHold, LengthEnds, LengthHyps, State.Runs, State.HasVRegsOf, and_assoc] using h

/-- The hypotheses of a refused index and of a refused length. -/
abbrev IndexOut (i : Instr) : Prop :=
  (regs [(5, 8)]).predHolds i.pred = true ∧ (regs [(5, 8)]).HasVRegsOf i ∧ (regs [(5, 8)]).vlMax ≤ ((regs [(5, 8)]).gpr 5).toNat
abbrev LengthOut (i : Instr) : Prop :=
  (regs [(5, 9)]).predHolds i.pred = true ∧ (regs [(5, 9)]).HasVRegsOf i ∧ (regs [(5, 9)]).vlMax < ((regs [(5, 9)]).gpr 5).toNat

theorem witness_DecodedBytesAreTheEncoding :
    decode [0x01, 0x57, 0x45, 0x20, 0x0C, 0x00, 0xAA] = .ok (.vadd p01 0 3 1 2 5, [0xAA]) := by rfl

/-- The three lengths. -/
theorem witness_OpcodeByteGivesLength :
    decode [0x01, 0x56, 0x45, 0x40, 0x00] = .ok (.vex p01 4 1 5, []) ∧
    decode [0x01, 0x89, 0x46, 0x31, 0x40, 0x00, 0x01] = .ok (.vld p01 0 16 3 5 6, [0x01]) ∧
    decode [0x01, 0x5A, 0x45, 0x20, 0x0C, 0x04, 0x08] = .ok (.vmac p01 0 4 0 4 1 2 3 5, []) := ⟨rfl, rfl, rfl⟩

/-- E7, E8, E6, an opcode of the base ISA, and Func6 = 3Fh. -/
theorem witness_UnassignedEncodingsRefused :
    (¬ (0x0201#56).extractLsb' 8 8 ∈ [0x56#8, 0x57#8, 0x5A#8, 0x89#8, 0xB9#8, 0x99#8, 0xC9#8]) ∧
    ((0x2030455601#56).extractLsb' 8 8 = 0x56#8 ∧ 7 < ((0x2030455601#56).extractLsb' 34 6).toNat) ∧
    ((0x200C20455701#56).extractLsb' 8 8 = 0x57#8 ∧ (0x200C20455701#56).extractLsb' 43 5 = 0x04#5) ∧
    ((0x410C20455701#56).extractLsb' 8 8 = 0x57#8 ∧ (0x410C20455701#56).extractLsb' 43 5 = 0x08#5 ∧
      (0x410C20455701#56).extractLsb' 40 3 ≠ 0#3) := by decide

theorem witness_FormatVm56Fields : encodeWord (.vmac p01 0 4 0 4 1 2 3 5) = 0x08040C20455A01#56 := by decide

/-- A state whose program text is V1's VMAC. -/
theorem witness_StepRunsTheInstructionAtThePc : let s := State.reset.withFetchWord 56 0x00040C20455A01
    ∀ k < (Instr.vmac p01 0 0 0 4 1 2 3 5).ilen, s.inText (s.pc.toNat + k) = true ∧
      some (s.mem.read (s.pc.toNat + k)) = (encode (.vmac p01 0 0 0 4 1 2 3 5))[k]? := by decide

/-- The end of a run; a pc outside the text; an opcode of the base ISA; a text too short for its instruction; E8. -/
theorem witness_StepRefusesWhatIsNoInstruction :
    State.reset.pc.toNat = State.reset.textBase.toNat + State.reset.textSize ∧
    (let s := { State.reset.withFetchWord 40 0x0431C55601 with pc := 6 }
     s.pc.toNat ≠ s.textBase.toNat + s.textSize ∧ s.inText (s.pc.toNat + 1) = false) ∧
    (let s := State.reset.withFetchWord 48 0x0201
     (∀ k < 2, s.inText (s.pc.toNat + k) = true) ∧
       ¬ s.mem.read (s.pc.toNat + 1) ∈ [0x56#8, 0x57#8, 0x5A#8, 0x89#8, 0xB9#8, 0x99#8, 0xC9#8]) ∧
    (let s := { State.reset.withFetchWord 40 0x0431C55601 with textSize := 4 }
     (∀ k < 2, s.inText (s.pc.toNat + k) = true) ∧ instrLength (s.mem.read (s.pc.toNat + 1)) = some 5 ∧
       s.inText (s.pc.toNat + 4) = false) ∧
    (let s := State.reset.withFetchWord 48 0x200C20455701
     (∀ k < 6, s.inText (s.pc.toNat + k) = true) ∧ instrLength (s.mem.read (s.pc.toNat + 1)) = some 6 ∧
       decodeWord (wordOfBytes ((List.range 6).map fun k => s.mem.read (s.pc.toNat + k))) = .error (.unassignedFunc5 4)) :=
  ⟨by decide, by decide, by decide, by decide, by decide, by decide, rfl⟩

/-- `exec` answers a next state for a store, which changes memory. -/
theorem witness_store_next : exec (.vst p01 0 16 3 5 6) (memState 2 0x1000) =
    .next (after (exec (.vst p01 0 16 3 5 6) (memState 2 0x1000))) := next_after (by decide)

/-- A step of VEINS from a text at 0. -/
theorem witness_StepKeepsInvariant : let s := State.reset.withFetchWord 40 0x0431C55601
    s.Inv ∧ step s = .next (after (step s)) :=
  ⟨by unfold State.Inv; decide, next_after (by decide)⟩
theorem witness_StepKeepsProgramText : let s := State.reset.withFetchWord 40 0x0431C55601
    step s = .next (after (step s)) ∧ s.inText 0 = true ∧ s.inText 6 = true ∧ s.inText 7 = false :=
  ⟨next_after (by decide), by decide⟩

/-- VCMP writing element 7, and the length form with length 8, element 7. -/
theorem witness_NoInstructionWritesPredicates :
    (let s := regs [(5, 7)]
     exec (.vcmp p01 0 3 1 2 5) s = .next (after (exec (.vcmp p01 0 3 1 2 5) s)) ∧ s.predHolds p01 = true ∧
       (7 : ElemIx).val = (s.gpr 5).toNat) ∧
    (let s := regs [(5, 8)]
     exec (.vcmpLen p01 0 3 1 2 5) s = .next (after (exec (.vcmpLen p01 0 3 1 2 5) s)) ∧ s.predHolds p01 = true ∧
       (7 : ElemIx).val < (s.gpr 5).toNat) :=
  ⟨⟨next_after (by decide), by decide⟩, ⟨next_after (by decide), by decide⟩⟩

/-- The same store answers the hypothesis of the statements over all instructions. -/
theorem witness_NoInstructionWritesOpaqueState : ∃ i s t, exec i s = .next t := ⟨_, _, _, witness_store_next⟩
theorem witness_PcAdvancesByLength : ∃ i s t, exec i s = .next t ∧ i.ilen = 6 := ⟨_, _, _, witness_store_next, rfl⟩
theorem witness_OnlyVexAndV2bitsWriteGprs : ∃ i s t, exec i s = .next t ∧ i = .vex p01 5 1 5 :=
  ⟨.vex p01 5 1 5, regs [(5, 3)], _, next_after (by decide), rfl⟩
theorem witness_OnlyStoresWriteMemory : ∃ i s t, exec i s = .next t ∧ t.mem ≠ s.mem :=
  ⟨_, _, _, witness_store_next, by decide⟩

/-- A pc with the last room for the advance, and the first without. -/
theorem witness_PredicateFalseOnlyAdvancesPc : let i := Instr.vadd ⟨2, 5⟩ 0 3 1 2 5
    let s := { State.reset with pc := 0xFFFFFFFFFFFFFFF9 }
    let s' := { State.reset with pc := 0xFFFFFFFFFFFFFFFA }
    (s.predHolds i.pred = false ∧ s.pc.toNat + i.ilen < 2 ^ 64) ∧ s'.predHolds i.pred = false ∧ 2 ^ 64 ≤ s'.pc.toNat + i.ilen := by
  decide

theorem witness_OnlyLoadsAndStoresRaise :
    exec (.vld p01 0 0 3 5 6) { regs [] with xlate := [⟨some 0, some .load, 0, 7, .tlb⟩] } = .fault (.raised .tlb 0 none) :=
  fault_of (by decide)

/-- With 32 vector registers there is no register 32. -/
theorem witness_MissingVectorRegisterRefused :
    let s := { State.reset with params := { Params.provisional with vregTop := 31 } }
    s.predHolds p01 = true ∧ (32 : VReg) ∈ (Instr.vadd p01 0 3 1 32 5).vregs ∧ s.hasVReg 32 = false ∧ s.hasVReg 31 = true := by
  decide

/-- With and without `R0_IS_ZERO`. -/
theorem witness_RegisterZero :
    (ElementHyps (.vex p01 0 1 5) 5 (regs [(5, 7)]) 7 ∧ (regs [(5, 7)]).params.r0IsZero = false) ∧
    (let s := { regs [(5, 7)] with params := { Params.provisional with r0IsZero := true } }
     ElementHyps (.vex p01 0 1 5) 5 s 7 ∧ s.params.r0IsZero = true) := by
  unfold ElementHyps State.Runs State.HasVRegsOf; decide

/-- The highest address at which eight bytes fit. -/
theorem witness_ResetState : (0xFFFFFFFFFFFFFFF8 : Word).toNat + 8 ≤ 2 ^ 64 := by decide

theorem witness_VaddAdds :
    (∀ t ∈ [0, 1, 2], ElementEnds (.vadd p01 t 3 1 2 5)) ∧ ∀ t ∈ [0, 1, 2], LengthEnds (.vaddLen p01 t 3 1 2 5) :=
  ⟨fun t ht => elementEnds (by revert t; decide), fun t ht => lengthEnds (by revert t; decide)⟩
theorem witness_VsubSubtracts :
    (∀ t ∈ [0, 1, 2], ElementEnds (.vsub p01 t 3 1 2 5)) ∧ ∀ t ∈ [0, 1, 2], LengthEnds (.vsubLen p01 t 3 1 2 5) :=
  ⟨fun t ht => elementEnds (by revert t; decide), fun t ht => lengthEnds (by revert t; decide)⟩
theorem witness_VmulMultiplies :
    (∀ t ∈ [0, 1, 2], ElementEnds (.vmul p01 t 3 1 2 5)) ∧ ∀ t ∈ [0, 1, 2], LengthEnds (.vmulLen p01 t 3 1 2 5) :=
  ⟨fun t ht => elementEnds (by revert t; decide), fun t ht => lengthEnds (by revert t; decide)⟩
/-- Also the operands of the quotient, and of its two corners. -/
theorem witness_VdivDivides :
    ((∀ t ∈ [0, 1, 2], ElementEnds (.vdiv p01 t 3 1 2 5)) ∧ ∀ t ∈ [0, 1, 2], LengthEnds (.vdivLen p01 t 3 1 2 5)) ∧
    ((0x8000000000000000 : Word).toInt = -2 ^ 63 ∧ (1 : Word) ≠ 0 ∧ (1 : Word).toInt ≠ -1) ∧
    (0xFFFFFFFFFFFFFFFF : Word).toInt = -1 :=
  ⟨⟨fun t ht => elementEnds (by revert t; decide), fun t ht => lengthEnds (by revert t; decide)⟩, by decide, by decide⟩
theorem witness_VscaleScales :
    (∀ t ∈ [0, 1, 2], ElementEnds (.vscale p01 t 3 1 7 5)) ∧ ∀ t ∈ [0, 1, 2], LengthEnds (.vscaleLen p01 t 3 1 7 5) :=
  ⟨fun t ht => elementEnds (by revert t; decide), fun t ht => lengthEnds (by revert t; decide)⟩
theorem witness_VcmpCompares :
    (∀ t ∈ [0, 1, 2], ElementEnds (.vcmp p01 t 3 1 2 5)) ∧ ∀ t ∈ [0, 1, 2], LengthEnds (.vcmpLen p01 t 3 1 2 5) :=
  ⟨fun t ht => elementEnds (by revert t; decide), fun t ht => lengthEnds (by revert t; decide)⟩
theorem witness_LogicalBitwise :
    ElementEnds (.vand p01 3 1 2 5) ∧ LengthEnds (.vandLen p01 3 1 2 5) ∧ ElementEnds (.vor p01 3 1 2 5) ∧
    LengthEnds (.vorLen p01 3 1 2 5) ∧ ElementEnds (.veor p01 3 1 2 5) ∧ LengthEnds (.veorLen p01 3 1 2 5) :=
  ⟨elementEnds (by decide), lengthEnds (by decide), elementEnds (by decide), lengthEnds (by decide), elementEnds (by decide),
    lengthEnds (by decide)⟩
theorem witness_ReservedTypesRefused : (regs []).predHolds p01 = true := by decide
theorem witness_IndexAndLengthOutOfRangeRefused : IndexOut (.vadd p01 0 3 1 2 5) ∧ IndexOut (.vand p01 3 1 2 5) ∧
    IndexOut (.vscale p01 0 3 1 7 5) ∧ LengthOut (.vaddLen p01 0 3 1 2 5) ∧ LengthOut (.vandLen p01 3 1 2 5) ∧
    LengthOut (.vscaleLen p01 0 3 1 7 5) := by
  unfold IndexOut LengthOut State.HasVRegsOf; decide
/-- Two elements, the higher one first, the target a source; and the empty list for the length 0. -/
theorem witness_LengthFormIsElementsInAnyOrder :
    (let s := pairs 3 4 0 0
     s.predHolds p01 = true ∧ operandType 0 = .ok .integer ∧
     exec (.vaddLen p01 0 1 1 1 5) s = .next (after (exec (.vaddLen p01 0 1 1 1 5) s)) ∧
     exec (.vscaleLen p01 0 1 1 5 5) s = .next (after (exec (.vscaleLen p01 0 1 1 5 5) s)) ∧
     exec (.vandLen p01 1 1 1 5) s = .next (after (exec (.vandLen p01 1 1 1 5) s)) ∧
     [(1 : ElemIx), 0].Nodup ∧ ∀ e : ElemIx, e ∈ [(1 : ElemIx), 0] ↔ e.val < (s.gpr 5).toNat) ∧
    ∀ e : ElemIx, e ∈ ([] : List ElemIx) ↔ e.val < ((regs [(5, 0)]).gpr 5).toNat :=
  ⟨⟨by decide, rfl, next_after (by decide), next_after (by decide), next_after (by decide), by decide, by decide⟩, by decide⟩

theorem witness_Misc56SharedRule :
    (Instr.vshl p01 3 1 5).opcode = 0x56 ∧
    exec (.vshl p01 3 1 5) (regs [(5, 7)]) = .next (after (exec (.vshl p01 3 1 5) (regs [(5, 7)]))) ∧
    (regs []).predHolds (Instr.vshl ⟨2, 5⟩ 3 1 5).pred = false ∧
    IndexOut (.vex p01 4 1 5) ∧ IndexOut (.veins p01 3 7 5) ∧ LengthOut (.vbits2v p01 3 7 5) ∧ LengthOut (.v2bits p01 4 1 5) ∧
    LengthOut (.vflt2int p01 3 1 5) ∧ LengthOut (.vint2flt p01 3 1 5) ∧ LengthOut (.vshl p01 3 1 5) ∧
    LengthOut (.vshr p01 3 1 5) :=
  ⟨by decide, next_after (by decide), by unfold IndexOut LengthOut State.HasVRegsOf; decide⟩
theorem witness_Vbits2vSpreadsBits : LengthEnds (.vbits2v p01 3 7 5) := by
  unfold LengthEnds LengthHyps State.Runs State.HasVRegsOf; decide
theorem witness_VeinsInserts : ElementEnds (.veins p01 3 7 5) ∧ IndexOut (.veins p01 3 7 5) := by
  unfold ElementEnds IndexOut ElementHyps State.Runs State.HasVRegsOf; decide
theorem witness_VexExtracts : ElementEnds (.vex p01 5 1 5) ∧ IndexOut (.vex p01 5 1 5) := by
  unfold ElementEnds IndexOut ElementHyps State.Runs State.HasVRegsOf; decide
theorem witness_ConversionsConvert : LengthEnds (.vflt2int p01 3 1 5) ∧ LengthEnds (.vint2flt p01 3 1 5) := by
  unfold LengthEnds LengthHyps State.Runs State.HasVRegsOf; decide
/-- The lengths 0 and 7 (below `VL_MAX`), and 8. -/
theorem witness_VshlShiftsUp : LengthEnds (.vshl p01 3 1 5) ∧ ((regs [(5, 7)]).gpr 5).toNat < (regs [(5, 7)]).vlMax ∧
    ((regs [(5, 8)]).gpr 5).toNat = (regs [(5, 8)]).vlMax := by
  unfold LengthEnds LengthHyps State.Runs State.HasVRegsOf; decide
/-- The lengths 1 and 8, and 0. -/
theorem witness_VshrShiftsDown : LengthEnds (.vshr p01 3 1 5) ∧ 0 < ((regs [(5, 1)]).gpr 5).toNat ∧
    ((regs [(5, 8)]).gpr 5).toNat ≤ (regs [(5, 8)]).vlMax ∧ ((regs [(5, 0)]).gpr 5).toNat = 0 := by
  unfold LengthEnds LengthHyps State.Runs State.HasVRegsOf; decide
/-- Under each of the three settings, and for a register that discards writes. -/
theorem witness_V2bitsGathers : LengthEnds (.v2bits p01 4 1 5) ∧ State.reset.params.v2bitsUpper = .zero ∧
    (∀ u ∈ [V2BitsUpper.zero, .preserve, .any],
      LengthHyps (.v2bits p01 0 1 5) 5 { regs [(5, 8)] with params := { Params.provisional with v2bitsUpper := u, r0IsZero := true } }) := by
  unfold LengthEnds LengthHyps State.Runs State.HasVRegsOf; decide
set_option maxRecDepth 4000 in
/-- The longest length. -/
theorem witness_BitsToVectorAndBack :
    let s := regs [(5, 8), (7, 0x1A5)]
    let t := after (exec (.vbits2v p01 3 7 5) s)
    s.predHolds p01 = true ∧ t.predHolds p01 = true ∧ s.params.v2bitsUpper = .zero ∧
      ¬(s.params.r0IsZero = true ∧ (4 : GReg) = 0) ∧ exec (.vbits2v p01 3 7 5) s = .next t ∧
      exec (.v2bits p01 4 3 5) t = .next (after (exec (.v2bits p01 4 3 5) t)) :=
  ⟨by decide, by decide, by decide, by decide, next_after (by decide), next_after (by decide)⟩
theorem witness_InsertThenExtract :
    let s := regs [(5, 7), (7, 0x8000000000000001)]
    let t := after (exec (.veins p01 3 7 5) s)
    s.predHolds p01 = true ∧ t.predHolds p01 = true ∧ ¬(s.params.r0IsZero = true ∧ (4 : GReg) = 0) ∧
      exec (.veins p01 3 7 5) s = .next t ∧ exec (.vex p01 4 3 5) t = .next (after (exec (.vex p01 4 3 5) t)) :=
  ⟨by decide, by decide, by decide, next_after (by decide), next_after (by decide)⟩

/-- A load of 1010h, both forms; a load of the last eight bytes of the address space. -/
theorem witness_LoadsLoad :
    (let s := (memState 7 0x1000).setGpr 7 2
     ElementHyps (.vld p01 0 16 3 5 6) 5 s 7 ∧ s.Reaches .load 0 (s.eaDisp 16 6) 0x1010 ∧
       ElementHyps (.vldx p01 0 0 3 3 5 7 6) 5 s 7 ∧ s.Reaches .load 0 (s.eaIndexed 3 7 6) 0x1010) ∧
    (let s := memState 0 0xFFFFFFFFFFFFFFF8
     ElementHyps (.vld p01 0 0 3 5 6) 5 s 0 ∧ s.Reaches .load 0 (s.eaDisp 0 6) 0xFFFFFFFFFFFFFFF8) := by
  unfold ElementHyps State.Runs State.HasVRegsOf State.Reaches
  refine ⟨⟨by decide, ⟨by decide, rfl, by decide⟩, by decide, ⟨by decide, rfl, by decide⟩⟩, by decide, ⟨by decide, rfl, by decide⟩⟩
/-- A store that just misses a program text at 1018h, both forms. -/
theorem witness_StoresStore :
    let s := { (memState 7 0x1000).setGpr 7 2 with textBase := 0x1018, textSize := 6 }
    s.Inv ∧ ElementHyps (.vst p01 0 16 3 5 6) 5 s 7 ∧ s.Reaches .store 0 (s.eaDisp 16 6) 0x1010 ∧
      ElementHyps (.vstx p01 0 0 3 3 5 7 6) 5 s 7 ∧ s.Reaches .store 0 (s.eaIndexed 3 7 6) 0x1010 ∧
      s.overlapsText (0x1010 : Word).toNat = false := by
  unfold ElementHyps State.Runs State.HasVRegsOf State.Reaches State.Inv
  refine ⟨by decide, by decide, ⟨by decide, rfl, by decide⟩, by decide, ⟨by decide, rfl, by decide⟩, by decide⟩
/-- A translation that raises, and each answer of the platform; the offset is a multiple of 8. -/
theorem witness_AccessExceptions :
    let s := { memState 7 0x1000 with
      xlate := [⟨some 0, some .load, 0x1010, 0x1010, .tlb⟩, ⟨some 0, some .store, 0x1010, 0x1010, .plus 0x100⟩],
      access := [⟨some .store, 0x1108, 0x1108, some .dbe⟩, ⟨some .store, 0x1110, 0x1110, some .dbg⟩,
        ⟨none, 0x1118, 0x1118, some .device⟩, ⟨none, 0, 0xFFFFFFFFFFFFFFFF, none⟩] }
    s.predHolds p01 = true ∧ s.HasVRegsOf (.vld p01 0 16 3 5 6) ∧ (s.gpr 5).toNat = (7 : ElemIx).val ∧
      (7 : ElemIx).val < s.vlMax ∧ (s.eaDisp 16 6).toNat % 8 = 0 ∧
      s.translate 0 (s.eaDisp 16 6) .load = .error .tlb ∧ s.translate 0 (s.eaDisp 16 6) .store = .ok 0x1110 ∧
      s.memFault .store 0x1110 = some .dbg ∧ s.memFault .store 0x1108 = some .dbe ∧ s.memFault .store 0x1118 = some .device ∧
      s.memFault .load 0xFFFFFFFFFFFFFFF9 = some .dbe := by
  unfold State.HasVRegsOf
  refine ⟨by decide, by decide, by decide, by decide, by decide, rfl, rfl, by decide, by decide, by decide, by decide⟩
/-- Unused bits; a misaligned offset under `refuse`; a store whose last byte is the first of the program text. -/
theorem witness_AccessRefusals :
    ((1 : BitVec 3) ≠ 0 ∧ (regs []).predHolds p01 = true) ∧
    (IndexOut (.vld p01 0 16 3 5 6) ∧ IndexOut (.vst p01 0 16 3 5 6) ∧ IndexOut (.vldx p01 0 0 3 3 5 7 6) ∧
      IndexOut (.vstx p01 0 0 3 3 5 7 6)) ∧
    (let s := { memState 7 0x1001 with params := { Params.provisional with misaligned := .refuse } }
     s.hasVReg 3 = true ∧ (s.gpr 5).toNat < s.vlMax ∧ s.params.misaligned = .refuse ∧ (s.eaDisp 16 6).toNat % 8 ≠ 0 ∧
       (s.eaIndexed 3 7 6).toNat % 8 ≠ 0) ∧
    (let s := { (memState 7 0x1000).setGpr 7 2 with textBase := 0x1017, textSize := 6 }
     s.overlapsText (0x1010 : Word).toNat = true ∧ s.hasVReg 3 = true ∧ (s.gpr 5).toNat < s.vlMax ∧
       s.Reaches .store 0 (s.eaDisp 16 6) 0x1010 ∧ s.Reaches .store 0 (s.eaIndexed 3 7 6) 0x1010) := by
  unfold IndexOut State.HasVRegsOf State.Reaches
  refine ⟨by decide, by decide, by decide, by decide, by decide, by decide, ⟨by decide, rfl, by decide⟩, ⟨by decide, rfl, by decide⟩⟩
/-- No rule of translation or platform, and the operands of the four accesses. -/
theorem witness_AccessWithNoPlatformGiven : let s := { (memState 7 0x1000).setGpr 7 2 with xlate := [], access := [] }
    s.xlate = [] ∧ s.access = [] ∧ s.predHolds p01 = true ∧ s.HasVRegsOf (.vst p01 0 16 3 5 6) ∧
      s.HasVRegsOf (.vldx p01 0 0 3 3 5 7 6) ∧ (s.gpr 5).toNat = (7 : ElemIx).val ∧ (7 : ElemIx).val < s.vlMax ∧
      (s.params.misaligned = .refuse → (s.eaDisp 16 6).toNat % 8 = 0) := by
  unfold State.HasVRegsOf; decide
/-- The two stores of 1010h, and after each the two loads. -/
theorem witness_StoreThenLoad :
    let s := State.withElems (regs [(5, 7), (6, 0x1000), (7, 2)]) [(3, 7, 0x1122334455667788)]
    s.Inv ∧ s.predHolds p01 = true ∧ s.Reaches .store 0 (s.eaDisp 16 6) 0x1010 ∧ s.Reaches .store 0 (s.eaIndexed 3 7 6) 0x1010 ∧
      (s.gpr 5).toNat = (7 : ElemIx).val ∧
      ∀ i ∈ [Instr.vst p01 0 16 3 5 6, .vstx p01 0 0 3 3 5 7 6],
        let t := after (exec i s)
        exec i s = .next t ∧ t.predHolds p01 = true ∧ t.Reaches .load 0 (t.eaDisp 16 6) 0x1010 ∧
          t.Reaches .load 0 (t.eaIndexed 3 7 6) 0x1010 ∧ (t.gpr 5).toNat = (7 : ElemIx).val ∧
          ∀ j ∈ [Instr.vld p01 0 16 4 5 6, .vldx p01 0 0 3 4 5 7 6], exec j t = .next (after (exec j t)) := by
  unfold State.Inv State.Reaches
  refine ⟨by decide, by decide, ⟨by decide, rfl, by decide⟩, ⟨by decide, rfl, by decide⟩, by decide, ?_⟩
  intro i hi
  have hn : isNext (exec i (State.withElems (regs [(5, 7), (6, 0x1000), (7, 2)]) [(3, 7, 0x1122334455667788)])) = true := by
    revert i; decide
  simp only [List.mem_cons, List.not_mem_nil, or_false] at hi
  rcases hi with rfl | rfl <;>
    exact ⟨next_after hn, by decide, ⟨by decide, rfl, by decide⟩, ⟨by decide, rfl, by decide⟩, by decide, fun j hj => next_after (by
      revert j; decide)⟩

/-- The provisional setting: `VMAC_O(0)` is the element form. -/
theorem witness_VmacElementForm :
    State.reset.params.vmacO[(0 : BitVec 3).toNat]'(0 : BitVec 3).isLt = .element ∧
    ∀ t ∈ [0, 1, 2], ElementEnds (.vmac p01 0 15 t 4 1 2 3 5) := by
  unfold ElementEnds ElementHyps State.Runs State.HasVRegsOf; decide
/-- A setting where `VMAC_O(7)` is the length form, with the lengths 0 and 8. -/
theorem witness_VmacLengthForm :
    let s := fun n => { regs [(5, n)] with params := { Params.provisional with vmacO := Params.provisional.vmacO.set 7 .length } }
    (s 0).params.vmacO[(7 : BitVec 3).toNat]'(7 : BitVec 3).isLt = .length ∧ operandType 0 = .ok .integer ∧
    LengthHyps (.vmac p01 7 0 0 4 1 2 3 5) 5 (s 0) ∧ LengthHyps (.vmac p01 7 0 0 4 1 2 3 5) 5 (s 8) := by
  unfold LengthHyps State.Runs State.HasVRegsOf
  exact ⟨by decide, rfl, by decide, by decide⟩
theorem witness_VmacRefusals :
    (regs []).predHolds p01 = true ∧ State.reset.params.vmacO[(1 : BitVec 3).toNat]'(1 : BitVec 3).isLt = .reserved ∧
    State.reset.params.vmacO[(0 : BitVec 3).toNat]'(0 : BitVec 3).isLt ≠ .reserved ∧
    IndexOut (.vmac p01 0 0 0 4 1 2 3 5) ∧
    (let s := { regs [(5, 9)] with params := { Params.provisional with vmacO := Params.provisional.vmacO.set 7 .length } }
     s.params.vmacO[(7 : BitVec 3).toNat]'(7 : BitVec 3).isLt = .length ∧ s.HasVRegsOf (.vmac p01 7 0 0 4 1 2 3 5) ∧
       s.vlMax < (s.gpr 5).toNat) := by
  unfold IndexOut State.HasVRegsOf; decide

end Sys2Proof.Tests
end

section
/-! PROOFS. The family of 10_state.md: no instruction writes a predicate, and VCMP records its result in elements (R20). -/

namespace Sys2Proof.Machine

/-- The three results that R88 names for a comparison: -1, 0 and +1 as elements. -/
def IsThreeWay (w : Word) : Prop := w = 0xFFFFFFFFFFFFFFFF ∨ w = 0 ∨ w = 1

theorem isThreeWay_threeWay (o : Ordering) : IsThreeWay (threeWay o) := by
  cases o with
  | lt => exact .inl rfl
  | eq => exact .inr (.inl rfl)
  | gt => exact .inr (.inr rfl)

/-- The result is three-way in every operand type, whatever `FCmp` is (R88, D14). -/
theorem isThreeWay_opCmp (ty : OperandType) (a b : Word) : IsThreeWay (opCmp ty a b) := by
  cases ty with
  | integer => exact isThreeWay_threeWay _
  | float f => exact isThreeWay_threeWay _

section
variable {s t : State} {n : Nat} {rs : List VReg} {vt : VReg} {ra : GReg} {f : ElemIx → Word} {k : ElemIx}

/-- What an element form leaves in the element that its index register numbers (R80). -/
theorem State.elem_of_elementForm (h : s.elementForm n rs vt ra f = .next t) (hk : k.val = (s.gpr ra).toNat) :
    t.elem vt k = f k := by
  rcases State.elementForm_cases h with ⟨_, ht⟩ | ⟨e, _, he, _, _, ht⟩
  · cases ht
  · obtain rfl : e = k := Fin.ext (he.symm.trans hk.symm)
    cases ht
    exact (State.elem_setElem s vt vt e e (f e)).trans (if_pos ⟨rfl, rfl⟩)

/-- What a length form leaves in the elements below its length (R81). -/
theorem State.elem_of_lengthForm (h : s.lengthForm n rs vt ra f = .next t) (hk : k.val < (s.gpr ra).toNat) :
    t.elem vt k = f k := by
  rcases State.lengthForm_cases h with ⟨_, ht⟩ | ⟨_, _, _, ht⟩
  · cases ht
  · cases ht
    exact (State.elem_setElems s vt vt (s.gpr ra).toNat f k).trans (if_pos ⟨rfl, hk⟩)

end

/-- A typed instruction that executes and completes has a type with a meaning, and its body answers the next state. -/
theorem State.predicated_withType_next {s t : State} {p : Pred} {n : Nat} {ty : BitVec 3} {body : OperandType → Out}
    (h : s.predicated p n (withType ty body) = .next t) (hp : s.predHolds p = true) : ∃ o, body o = .next t := by
  rw [State.predicated_true n _ hp] at h
  rcases withType_cases h with ⟨_, hr⟩ | ⟨o, _, ho⟩
  · cases hr
  · exact ⟨o, ho⟩

section
variable {p : Pred} {ty : BitVec 3} {vt va vb : VReg} {ra : GReg} {s t : State} {k : ElemIx}

/-- VCMP writes a three-way result into the element that `ra` numbers (R88). -/
theorem vcmp_writes_threeWay (h : exec (.vcmp p ty vt va vb ra) s = .next t) (hp : s.predHolds p = true)
    (hk : k.val = (s.gpr ra).toNat) : IsThreeWay (t.elem vt k) := by
  obtain ⟨o, ho⟩ := State.predicated_withType_next h hp
  rw [State.elem_of_elementForm ho hk]
  exact isThreeWay_opCmp o _ _

/-- VCMP.len writes three-way results into the elements below the length in `ra` (R89). -/
theorem vcmpLen_writes_threeWay (h : exec (.vcmpLen p ty vt va vb ra) s = .next t) (hp : s.predHolds p = true)
    (hk : k.val < (s.gpr ra).toNat) : IsThreeWay (t.elem vt k) := by
  obtain ⟨o, ho⟩ := State.predicated_withType_next h hp
  rw [State.elem_of_lengthForm ho hk]
  exact isThreeWay_opCmp o _ _

end

/-- Nothing that an executed instruction can do reaches the predicate state (R20). -/
theorem Effect.pred_eq {i : Instr} {s t : State} (h : Effect i s t) : t.pred = s.pred := by
  cases h with
  | elements => rfl
  | gpr => rfl
  | memory => rfl

/-- The predicate state is as before, whether the instruction was skipped or ran (R20). -/
theorem exec_pred_eq {i : Instr} {s t : State} (h : exec i s = .next t) : t.pred = s.pred := by
  obtain ⟨_, ⟨_, rfl⟩ | ⟨_, _, he⟩⟩ := exec_next h
  · rfl
  · exact he.pred_eq

/-- Settles O17: the predicate state by what any instruction can do (`exec_next`), the elements by the two forms of VCMP. -/
theorem noInstructionWritesPredicates : Obligations.NoInstructionWritesPredicates := by
  intro i s t h
  refine ⟨exec_pred_eq h, fun hp p ty vt va vb ra k hi => ?_⟩
  rcases hi with ⟨rfl, hk⟩ | ⟨rfl, hk⟩
  · exact vcmp_writes_threeWay h hp hk
  · exact vcmpLen_writes_threeWay h hp hk

end Sys2Proof.Machine
end

section
/-! PROOFS. The family of 30_encoding.md: where the fields of each format stand in the word of an instruction (R51, R53 to R56). -/

namespace Sys2Proof.Machine

/-! ## The low 16 bits, which the five formats share (R51) -/

/-- A word is 40 bits of fields of its format above the opcode byte and the predicate byte. -/
theorem encodeWord_eq_append (i : Instr) :
    ∃ hi : BitVec 40, encodeWord i = hi ++ i.opcode ++ i.pred.pn ++ i.pred.pc := by
  cases i <;> exact ⟨_, rfl⟩

/-- Settles O4: the fields of the low 16 bits are read off the append that every word is. -/
theorem lowSixteenBitsOfEveryWord : Obligations.LowSixteenBitsOfEveryWord := by
  intro i
  obtain ⟨hi, hw⟩ := encodeWord_eq_append i
  rw [hw]
  refine ⟨?_, ?_, ?_⟩ <;>
  simp (disch := omega) only [BitVec.extractLsb'_append_eq_of_le, BitVec.extractLsb'_append_eq_of_add_le, Nat.reduceSub,
    BitVec.extractLsb'_eq_self]

theorem predByte (i : Instr) : PredByte i :=
  have ⟨hpc, hpn, _⟩ := lowSixteenBitsOfEveryWord i
  ⟨hpn, hpc⟩

theorem encodeWord_opcode (i : Instr) : (encodeWord i).extractLsb' 8 8 = i.opcode :=
  have ⟨_, _, hopc⟩ := lowSixteenBitsOfEveryWord i
  hopc

/-! ## The fields of an instruction whose word is of a format -/

section
variable {i : Instr} {func : BitVec 5} {t seg unused : BitVec 3} {sc : BitVec 2} {disp : BitVec 11} {opc : BitVec 8}
  {a b c d : BitVec 6}

theorem fieldsV48_of_word (hn : i.ilen = 6) (hw : encodeWord i = wordV48 func t a b c d i.pred) :
    FieldsV48 i func t a b c d := by
  unfold FieldsV48 PredByte
  rw [hw]
  exact ⟨hn, wordV48_fields ..⟩

theorem fieldsVls_of_word (hn : i.ilen = 6) (hw : encodeWord i = wordVls opc seg disp a b c i.pred) :
    FieldsVls i seg disp a b c := by
  obtain ⟨h0, hseg, hdisp, ha, hb, hc, -⟩ := wordVls_fields i.pred seg disp opc a b c
  rw [← hw] at h0 hseg hdisp ha hb hc
  exact ⟨hn, h0, hseg, hdisp, ha, hb, hc, predByte i⟩

theorem fieldsVlx_of_word (hn : i.ilen = 6) (hw : encodeWord i = wordVlx opc seg unused sc a b c d i.pred) :
    FieldsVlx i seg unused sc a b c d := by
  obtain ⟨h0, hseg, hu, hsc, ha, hb, hc, hd, -⟩ := wordVlx_fields i.pred seg unused sc opc a b c d
  rw [← hw] at h0 hseg hu hsc ha hb hc hd
  exact ⟨hn, h0, hseg, hu, hsc, ha, hb, hc, hd, predByte i⟩

end

/-! ## The formats -/

/-- Settles O6: each of the eighteen instructions is encoded in format V48, whose fields are known. -/
theorem formatV48Fields : Obligations.FormatV48Fields := by
  intro p t vt va vb ra
  constructorm* _ ∧ _ <;> exact fieldsV48_of_word rfl rfl

/-- Settles O7: both instructions are encoded in format VLS; their opcodes are those of R51. -/
theorem formatVlsFields : Obligations.FormatVlsFields :=
  fun _ _ _ _ _ _ => ⟨fieldsVls_of_word rfl rfl, fieldsVls_of_word rfl rfl, encodeWord_opcode _, encodeWord_opcode _⟩

/-- Settles O8: both instructions are encoded in format VLX; their opcodes are those of R51. -/
theorem formatVlxFields : Obligations.FormatVlxFields :=
  fun _ _ _ _ _ _ _ _ => ⟨fieldsVlx_of_word rfl rfl, fieldsVlx_of_word rfl rfl, encodeWord_opcode _, encodeWord_opcode _⟩

/-- Settles O9: the word of VMAC is the word of format VM56. -/
theorem formatVm56Fields : Obligations.FormatVm56Fields := by
  rintro p o sn t vt va vb vc ra w rfl
  exact ⟨rfl, wordVm56_fields ..⟩

end Sys2Proof.Machine
end

section
/-! PROOFS. The family of 41_vector_misc_56h.md: VEINS and VEX, which move one element between the register files (R124, R125). -/

namespace Sys2Proof.Machine

/-! ## What an instruction's encoding and its shared operations give -/

/-- The fields of an instruction whose word is of format V40, with `Func6` (R52). -/
theorem fieldsV40_of_word {i : Instr} {func a b c : BitVec 6} (hn : i.ilen = 5)
    (hw : encodeWord i = wordV40 func a b c i.pred) :
    FieldsV40 i a b c ∧ (encodeWord i).extractLsb' 34 6 = func := by
  obtain ⟨h0, hfunc, ha, hb, hc, hopc, -⟩ := wordV40_fields i.pred func a b c
  rw [← hw] at h0 hfunc ha hb hc hopc
  exact ⟨⟨hn, h0, ha, hb, hc, hopc, predByte i⟩, hfunc⟩

/-- An instruction that is no load and no store raises nothing (R173). -/
theorem exec_ne_fault {i : Instr} (hi : ¬Accesses i) (s : State) (f : Fault) : exec i s ≠ .fault f := by
  intro h
  have ha := exec_answers i s
  rw [h] at ha
  cases ha with
  | raised hacc => exact hi hacc

section
variable {i : Instr} {ra : GReg}

/-- An instruction that, where its predicate holds, tests its vector registers and then its index refuses an index at or above
`VL_MAX` (D9). -/
theorem indexRefused_of_exec {body : State → ElemIx → Out}
    (h : ∀ s, exec i s = s.predicated i.pred i.ilen (s.withVRegs i.vregs (s.withIndex ra (body s)))) : IndexRefused i ra := by
  intro s hp hv hix
  rw [h, State.predicated_true _ _ hp, State.withVRegs_ok _ hv, State.withIndex_out _ hix]

/-- An instruction that is an element form behind the predicate test writes the one element and nothing else (R80). -/
theorem elementFormWrites_of_exec {rs : List VReg} {vt : VReg} {f : State → ElemIx → Word} (hv : i.vregs = vt :: rs)
    (h : ∀ s, exec i s = s.predicated i.pred i.ilen (s.elementForm i.ilen rs vt ra (f s))) : ElementFormWrites i vt ra f := by
  intro s e ⟨hp, hpc⟩ hr he hlt
  unfold State.HasVRegsOf at hr
  rw [hv] at hr
  rw [h, State.predicated_true _ _ hp, State.elementForm_ok hr he hlt hpc]
  exact ⟨_, rfl, rfl, fun r k => State.elem_setElem s vt r e k (f s e)⟩

end

/-! ## VEINS -/

/-- Settles O39: VEINS is the element form whose value is all of `x[rb]`. -/
theorem veinsInserts : Obligations.VeinsInserts := by
  intro p vt rb ra
  obtain ⟨hfields, hfunc⟩ := fieldsV40_of_word (i := .veins p vt rb ra) rfl rfl
  exact ⟨hfields, hfunc, elementFormWrites_of_exec rfl fun _ => rfl, indexRefused_of_exec fun _ => rfl,
    exec_ne_fault (by simp [Accesses]), by decide⟩

/-! ## VEX -/

/-- VEX where its operands pass their tests: the write of `x[rt]`, then the advance of the pc (R125). -/
theorem exec_vex_eq_next {s : State} {p : Pred} {rt : GReg} {va : VReg} {ra : GReg} {e : ElemIx} (hrun : s.Runs (.vex p rt va ra))
    (hv : s.HasVRegsOf (.vex p rt va ra)) (he : (s.gpr ra).toNat = e.val) (hlt : e.val < s.vlMax) :
    exec (.vex p rt va ra) s = .next { s.setGpr rt (s.elem va e) with pc := s.pcAfter (.vex p rt va ra) } := by
  obtain ⟨hp, hpc⟩ := hrun
  calc exec (.vex p rt va ra) s
    _ = s.withVRegs [va] (s.withIndex ra fun e => (s.setGpr rt (s.elem va e)).advance 5) := State.predicated_true _ _ hp
    _ = (s.setGpr rt (s.elem va e)).advance 5 := (State.withVRegs_ok _ hv).trans (State.withIndex_ok _ he hlt)
    _ = _ := by rw [State.advance_eq (by rwa [State.setGpr_pc]), State.setGpr_pc]; rfl

/-- A write of one general purpose register and of the pc is within the frame of general purpose registers. -/
theorem wroteGprs_setGpr (i : Instr) (s : State) (r : GReg) (w : Word) :
    WroteGprs i s { s.setGpr r w with pc := s.pcAfter i } := by
  unfold WroteGprs
  rw [State.setGpr_eq]

/-- Settles O40: the element is read before `x[rt]` is written, so a target that is also the index register needs no case of its
own. -/
theorem vexExtracts : Obligations.VexExtracts := by
  intro p rt va ra
  obtain ⟨hfields, hfunc⟩ := fieldsV40_of_word (i := .vex p rt va ra) rfl rfl
  refine ⟨hfields, hfunc, fun s e hrun hv he hlt => ?_, indexRefused_of_exec fun _ => rfl, exec_ne_fault (by simp [Accesses]),
    by decide⟩
  exact ⟨_, exec_vex_eq_next hrun hv he hlt, wroteGprs_setGpr _ s rt _, fun r => State.gpr_setGpr s rt r (s.elem va e)⟩

end Sys2Proof.Machine
end

section
/-! PROOFS. The family of 30_encoding.md: decoding and encoding are inverse to each other, and what the decoder refuses. -/

namespace Sys2Proof

/-! ## The decoder by its opcode byte -/

section
variable {w : BitVec 56}

theorem decodeWord_of_opcV40 (h : w.extractLsb' 8 8 = opcV40) : decodeWord w = decodeV40 w := by
  simp [decodeWord, h]

theorem decodeWord_of_opcV48 (h : w.extractLsb' 8 8 = opcV48) : decodeWord w = decodeV48 w := by
  simp [decodeWord, h, opcV40, opcV48]

/-- The opcode bytes of the extension (R64). -/
def opcodeBytes : List (BitVec 8) := [opcV40, opcV48, opcVmac, opcVld, opcVldx, opcVst, opcVstx]

theorem decodeWord_of_unassigned (h : w.extractLsb' 8 8 ∉ opcodeBytes) :
    decodeWord w = .error (.unassignedOpcode (w.extractLsb' 8 8)) := by
  simp only [opcodeBytes, List.mem_cons, List.not_mem_nil, or_false, not_or] at h
  simp only [decodeWord, h, if_false]

/-- A logical instruction decodes where bits 42:40 are 0, and only there (R62). -/
theorem decodeLogical_ok_iff {func : BitVec 5} {t : BitVec 3} {i i' : Instr} :
    decodeLogical func t i = .ok i' ↔ t = 0 ∧ i = i' := by
  unfold decodeLogical; split <;> simp_all

end

/-! ## The word of an instruction decodes to it -/

section
variable (p : Pred) (func5 : BitVec 5) (t : BitVec 3) (func6 a b c d : BitVec 6)

theorem decodeWord_wordV40 : decodeWord (wordV40 func6 a b c p) = decodeV40 (wordV40 func6 a b c p) := by
  obtain ⟨-, -, -, -, -, hopc, -⟩ := wordV40_fields p func6 a b c
  exact decodeWord_of_opcV40 hopc

theorem decodeWord_wordV48 : decodeWord (wordV48 func5 t a b c d p) = decodeV48 (wordV48 func5 t a b c d p) := by
  obtain ⟨-, -, -, -, -, -, -, hopc, -⟩ := wordV48_fields p t a b c d func5
  exact decodeWord_of_opcV48 hopc

end

/-- The decoder reads each field where the format puts it, so it gives back the instruction of the word; the cases are the
formats. -/
theorem decodeWord_encodeWord (i : Instr) : decodeWord (encodeWord i) = .ok i := by
  cases i
  case vex | veins | vshl | vshr | vflt2int | vint2flt | v2bits | vbits2v =>
    simp only [encodeWord, decodeWord_wordV40, decodeV40, wordV40_fields, predOf]
    rfl
  case vadd | vaddLen | vsub | vsubLen | vmul | vmulLen | vdiv | vdivLen | vscale | vscaleLen | vcmp | vcmpLen |
      vand | vandLen | vor | vorLen | veor | veorLen =>
    simp only [encodeWord, decodeWord_wordV48, decodeV48, wordV48_fields, predOf]
    rfl
  case vld | vst =>
    simp only [encodeWord, decodeWord, wordVls_fields, predOf]
    rfl
  case vldx | vstx =>
    simp only [encodeWord, decodeWord, wordVlx_fields, predOf]
    rfl
  case vmac =>
    simp only [encodeWord, decodeWord, wordVm56_fields, predOf]
    rfl

/-! ## The instruction of a word encodes to it

The fields of each format lie side by side and fill the word, so the word of the fields read from `w` has the bits of `w`. -/

section
variable {w : BitVec 56} {i : Instr} {j : Nat}

theorem wordV40_getLsbD_of_fields (hopc : w.extractLsb' 8 8 = opcV40) (hj : j < 40) :
    (wordV40 (w.extractLsb' 34 6) (w.extractLsb' 28 6) (w.extractLsb' 22 6) (w.extractLsb' 16 6) (predOf w)).getLsbD j =
      w.getLsbD j := by
  unfold wordV40 predOf
  rw [← hopc]
  simp only [BitVec.getLsbD_append, BitVec.getLsbD_extractLsb']
  grind

theorem wordV48_getLsbD_of_fields (hopc : w.extractLsb' 8 8 = opcV48) (hj : j < 48) :
    (wordV48 (w.extractLsb' 43 5) (w.extractLsb' 40 3) (w.extractLsb' 34 6) (w.extractLsb' 28 6) (w.extractLsb' 22 6)
      (w.extractLsb' 16 6) (predOf w)).getLsbD j = w.getLsbD j := by
  unfold wordV48 predOf
  rw [← hopc]
  simp only [BitVec.getLsbD_append, BitVec.getLsbD_extractLsb']
  grind

theorem wordVls_getLsbD_of_fields (hj : j < 48) :
    (wordVls (w.extractLsb' 8 8) (w.extractLsb' 45 3) (w.extractLsb' 34 11) (w.extractLsb' 28 6) (w.extractLsb' 22 6)
      (w.extractLsb' 16 6) (predOf w)).getLsbD j = w.getLsbD j := by
  unfold wordVls predOf
  simp only [BitVec.getLsbD_append, BitVec.getLsbD_extractLsb']
  grind

theorem wordVlx_getLsbD_of_fields (hj : j < 48) :
    (wordVlx (w.extractLsb' 8 8) (w.extractLsb' 45 3) (w.extractLsb' 42 3) (w.extractLsb' 40 2) (w.extractLsb' 34 6)
      (w.extractLsb' 28 6) (w.extractLsb' 22 6) (w.extractLsb' 16 6) (predOf w)).getLsbD j = w.getLsbD j := by
  unfold wordVlx predOf
  simp only [BitVec.getLsbD_append, BitVec.getLsbD_extractLsb']
  grind

theorem wordVm56_getLsbD_of_fields (hopc : w.extractLsb' 8 8 = opcVmac) (hj : j < 56) :
    (wordVm56 (w.extractLsb' 53 3) (w.extractLsb' 49 4) (w.extractLsb' 46 3) (w.extractLsb' 40 6) (w.extractLsb' 34 6)
      (w.extractLsb' 28 6) (w.extractLsb' 22 6) (w.extractLsb' 16 6) (predOf w)).getLsbD j = w.getLsbD j := by
  unfold wordVm56 predOf
  rw [← hopc]
  simp only [BitVec.getLsbD_append, BitVec.getLsbD_extractLsb']
  rcases Nat.lt_or_ge j 28 with hlow | hhigh <;> grind

/-- An instruction under opcode 56h is 5 bytes and its word is that of the fields it was read from. -/
theorem encodeWord_of_decodeV40 (h : decodeV40 w = .ok i) :
    i.ilen = 5 ∧ encodeWord i = wordV40 (w.extractLsb' 34 6) (w.extractLsb' 28 6) (w.extractLsb' 22 6)
      (w.extractLsb' 16 6) (predOf w) := by
  unfold decodeV40 at h
  split at h <;> cases h <;> next hfunc => exact ⟨rfl, by rw [hfunc]; rfl⟩

/-- An instruction under opcode 57h is 6 bytes and its word is that of the fields it was read from. -/
theorem encodeWord_of_decodeV48 (h : decodeV48 w = .ok i) :
    i.ilen = 6 ∧ encodeWord i = wordV48 (w.extractLsb' 43 5) (w.extractLsb' 40 3) (w.extractLsb' 34 6)
      (w.extractLsb' 28 6) (w.extractLsb' 22 6) (w.extractLsb' 16 6) (predOf w) := by
  unfold decodeV48 at h
  simp only at h
  split at h
  case h_7 | h_8 | h_9 | h_16 | h_17 | h_18 =>
    obtain ⟨ht, rfl⟩ := decodeLogical_ok_iff.1 h
    exact ⟨rfl, by rw [ht]; simp only [*]; rfl⟩
  all_goals cases h <;> next hfunc => exact ⟨rfl, by rw [hfunc]; rfl⟩

/-- No instruction's word has a bit above its length: the laws of the encoded length, over all instructions (R50). -/
theorem encodeWord_above (i : Instr) : Laws.EncodedLength.Statement i := by
  cases i
  case vex | veins | vshl | vshr | vflt2int | vint2flt | v2bits | vbits2v =>
    exact Laws.EncodedLength.of_high rfl rfl (wordV40_fields ..).1
  case vld | vst => exact Laws.EncodedLength.of_high rfl rfl (wordVls_fields ..).1
  case vldx | vstx => exact Laws.EncodedLength.of_high rfl rfl (wordVlx_fields ..).1
  case vmac => exact Laws.EncodedLength.vmac ..
  all_goals exact Laws.EncodedLength.of_high rfl rfl (wordV48_fields ..).1

/-- The word of the instruction that a word decodes to has the bits of that word, as far as the instruction reaches. -/
theorem encodeWord_getLsbD_of_decodeWord (h : decodeWord w = .ok i) (hj : j < 8 * i.ilen) :
    (encodeWord i).getLsbD j = w.getLsbD j := by
  by_cases hmem : w.extractLsb' 8 8 ∈ opcodeBytes
  · simp only [opcodeBytes, List.mem_cons, List.not_mem_nil, or_false] at hmem
    rcases hmem with hopc | hopc | hopc | hopc | hopc | hopc | hopc
    · obtain ⟨hn, hw⟩ := encodeWord_of_decodeV40 (decodeWord_of_opcV40 hopc ▸ h)
      rw [hw, wordV40_getLsbD_of_fields hopc (by omega)]
    · obtain ⟨hn, hw⟩ := encodeWord_of_decodeV48 (decodeWord_of_opcV48 hopc ▸ h)
      rw [hw, wordV48_getLsbD_of_fields hopc (by omega)]
    · simp only [decodeWord, hopc] at h
      cases h
      exact wordVm56_getLsbD_of_fields hopc hj
    all_goals
      simp only [decodeWord, hopc] at h
      cases h
      rw [encodeWord, ← hopc]
    · exact wordVls_getLsbD_of_fields hj
    · exact wordVlx_getLsbD_of_fields hj
    · exact wordVls_getLsbD_of_fields hj
    · exact wordVlx_getLsbD_of_fields hj
  · rw [decodeWord_of_unassigned hmem] at h
    cases h

/-- A word with nothing above the instruction that it decodes to is that instruction's word. -/
theorem encodeWord_of_decodeWord (h : decodeWord w = .ok i) (hhigh : ∀ j, 8 * i.ilen ≤ j → w.getLsbD j = false) :
    encodeWord i = w := by
  have ⟨_, hi⟩ := encodeWord_above i
  refine BitVec.eq_of_getLsbD_eq fun j _ => ?_
  rcases Nat.lt_or_ge j (8 * i.ilen) with hj | hj
  · exact encodeWord_getLsbD_of_decodeWord h hj
  · rw [hi j hj, hhigh j hj]

theorem opcode_of_decodeWord (h : decodeWord w = .ok i) : i.opcode = w.extractLsb' 8 8 := by
  rw [← Machine.encodeWord_opcode i]
  refine BitVec.eq_of_getLsbD_eq fun j hj => ?_
  have := (ilen_range i).1
  rw [BitVec.getLsbD_extractLsb', BitVec.getLsbD_extractLsb', encodeWord_getLsbD_of_decodeWord h (by omega)]

end

/-! ## Lists of bytes -/

theorem encode_length (i : Instr) : (encode i).length = i.ilen := bytesOfWord_length _ _

theorem encode_getElem?_one (i : Instr) : (encode i)[1]? = some i.opcode := by
  have hlt : 1 < (encode i).length := by have := ilen_range i; rw [encode_length]; omega
  rw [List.getElem?_eq_getElem hlt, ← Machine.encodeWord_opcode i]
  exact congrArg some (bytesOfWord_getElem _ _ 1 hlt)

/-- The second byte is bits 15:8 of the word (R32). -/
theorem wordOfBytes_opcode {bs : List Byte} {opc : Byte} (h : bs[1]? = some opc) :
    (wordOfBytes bs).extractLsb' 8 8 = opc := by
  refine BitVec.eq_of_getLsbD_eq fun j hj => ?_
  have hd : (8 + j) / 8 = 1 := by omega
  have hm : (8 + j) % 8 = j := by omega
  rw [BitVec.getLsbD_extractLsb', wordOfBytes_getLsbD bs (by omega), hd, hm, h]
  simp [hj]

theorem instrLength_range {opc : Byte} {n : Nat} (h : instrLength opc = some n) : 5 ≤ n ∧ n ≤ 7 := by
  unfold instrLength at h
  grind

theorem instrLength_of_unassigned {opc : Byte} (h : opc ∉ opcodeBytes) : instrLength opc = none := by
  simp only [opcodeBytes, List.mem_cons, List.not_mem_nil, or_false, not_or] at h
  simp only [instrLength, h, if_false]

/-- Bytes whose second gives their number are decoded as the word they make, and those after them are left (R50). -/
theorem decode_append {bs : List Byte} {opc : Byte} (rest : List Byte) (hopc : bs[1]? = some opc)
    (hn : instrLength opc = some bs.length) : decode (bs ++ rest) = (decodeWord (wordOfBytes bs)).map (·, rest) := by
  match bs with
  | [] | [_] => simp at hopc
  | b :: opc' :: bs' =>
    obtain rfl : opc' = opc := by simpa using hopc
    unfold decode
    simp only [List.cons_append, hn]
    rw [if_neg (by simp), ← List.cons_append, ← List.cons_append, List.take_left, List.drop_left]
    cases decodeWord (wordOfBytes (b :: opc' :: bs')) <;> rfl

/-- All that a decoding can be: the bytes that the second one counts off, and their word's instruction. -/
theorem decode_ok {bytes rest : List Byte} {i : Instr} (h : decode bytes = .ok (i, rest)) :
    ∃ bs opc, bytes = bs ++ rest ∧ bs[1]? = some opc ∧ instrLength opc = some bs.length ∧
      decodeWord (wordOfBytes bs) = .ok i := by
  match bytes with
  | [] | [_] => simp [decode] at h
  | b :: opc :: bs' =>
    unfold decode at h
    simp only at h
    split at h
    · simp at h
    · next n hn =>
      split at h
      · simp at h
      · next hlen =>
        have hlen' : ((b :: opc :: bs').take n).length = n := List.length_take_of_le (by omega)
        split at h
        · next hw =>
          obtain ⟨rfl, rfl⟩ : _ = i ∧ _ = rest := by simpa using h
          refine ⟨_, opc, (List.take_append_drop n _).symm, ?_, hlen'.symm ▸ hn, hw⟩
          have := (instrLength_range hn).1
          rw [List.getElem?_take_of_lt (by omega)]
          rfl
        · simp at h

/-- Settles O1: the bytes of a word make that word again, and the word decodes to its instruction. -/
theorem encodeThenDecode : Obligations.EncodeThenDecode := by
  intro i rest
  have ⟨_, hi⟩ := encodeWord_above i
  have hn : instrLength i.opcode = some (encode i).length := by rw [encode_length]; exact instrLength_opcode i
  have hw : wordOfBytes (encode i) = encodeWord i := wordOfBytes_bytesOfWord hi
  rw [decode_append rest (encode_getElem?_one i) hn, hw, decodeWord_encodeWord]
  rfl

/-- Settles O2: the word of the bytes taken is the word of the instruction, and a word of at most 7 bytes gives them again. -/
theorem decodedBytesAreTheEncoding : Obligations.DecodedBytesAreTheEncoding := by
  intro bytes i rest h
  obtain ⟨bs, opc, rfl, hopc, hn, hw⟩ := decode_ok h
  have hlen : bs.length = i.ilen := by
    rw [← wordOfBytes_opcode hopc, ← opcode_of_decodeWord hw, instrLength_opcode] at hn
    exact (Option.some.inj hn).symm
  have henc : encodeWord i = wordOfBytes bs :=
    encodeWord_of_decodeWord hw fun j hj => wordOfBytes_above (by omega)
  rw [encode, henc, ← hlen, bytesOfWord_wordOfBytes (by have := ilen_range i; omega)]

/-- Settles O11: what decodes begins with the instruction's encoding, whose second byte is its opcode. -/
theorem opcodeByteGivesLength : Obligations.OpcodeByteGivesLength := by
  intro bytes i rest h
  have hb := decodedBytesAreTheEncoding bytes i rest h
  refine ⟨by rw [hb, List.length_append, encode_length], i.opcode, ?_, by cases i <;> rfl⟩
  rw [hb, List.getElem?_append_left (by have := ilen_range i; rw [encode_length]; omega), encode_getElem?_one]

/-! ## What the decoder refuses -/

/-- Settles O10: by the opcode byte, and then by the function code in the branch of the decoder that it leads to. -/
theorem unassignedEncodingsRefused : Obligations.UnassignedEncodingsRefused := by
  refine fun w => ⟨decodeWord_of_unassigned, fun hopc hf => ?_, fun hopc hf => ?_, fun hopc hf ht => ?_⟩
  · rw [decodeWord_of_opcV40 hopc]
    unfold decodeV40
    split
    case h_9 => rfl
    all_goals next hc => simp [hc] at hf
  · rw [decodeWord_of_opcV48 hopc]
    unfold decodeV48
    split
    case h_19 => rfl
    all_goals next hc => simp [hc] at hf
  · rw [decodeWord_of_opcV48 hopc]
    simp only [List.mem_cons, List.not_mem_nil, or_false] at hf
    unfold decodeV48 decodeLogical
    rcases hf with hf | hf | hf | hf | hf | hf <;> (rw [hf]; exact if_neg ht)

end Sys2Proof
end

section
/-! PROOFS. The step: what it fetches, and where it refuses before an instruction runs (R38, R50, R196). -/

namespace Sys2Proof.Machine

section
variable {s : State} {n : Nat}

/-- The bytes at the pc where all of them lie in the program text (R38). -/
theorem State.textBytes_ok (h : ∀ k < n, s.inText (s.pc.toNat + k) = true) :
    s.textBytes n = .ok ((List.range n).map fun k => s.mem.read (s.pc.toNat + k)) :=
  if_pos (by simpa using h)

theorem State.textBytes_out (h : ∃ k < n, s.inText (s.pc.toNat + k) = false) :
    s.textBytes n = .error .fetchOutsideText :=
  if_neg (by simpa using h)

/-- A pc inside the text is not the end of the run. -/
theorem State.pc_ne_end_of_inText (h : s.inText s.pc.toNat = true) : s.pc.toNat ≠ s.textBase.toNat + s.textSize := by
  unfold State.inText at h
  simp only [Bool.and_eq_true, decide_eq_true_eq] at h
  omega

/-- The fetch where the first two bytes lie in the text: as many bytes as the second one says (R50). -/
theorem State.fetch_eq_textBytes (h : ∀ k < 2, s.inText (s.pc.toNat + k) = true) :
    s.fetch = s.textBytes ((instrLength (s.mem.read (s.pc.toNat + 1))).getD 2) := by
  unfold State.fetch
  rw [if_neg (State.pc_ne_end_of_inText (h 0 (by omega))), State.textBytes_ok h]

theorem step_of_fetch_error {r : Refusal} (h : s.fetch = .error r) : step s = .refused r := by
  unfold step; rw [h]

theorem step_of_decode_error {bs : List Byte} {e : DecodeError} (hf : s.fetch = .ok bs) (hd : decode bs = .error e) :
    step s = .refused (.undecodable e) := by
  unfold step; rw [hf]; simp only [hd]

theorem step_of_decode_ok {bs rest : List Byte} {i : Instr} (hf : s.fetch = .ok bs) (hd : decode bs = .ok (i, rest)) :
    step s = exec i s := by
  unfold step; rw [hf]; simp only [hd]

/-- All that a step with a next state can be: the exec of some instruction. -/
theorem step_next {t : State} (h : step s = .next t) : ∃ i, exec i s = .next t := by
  unfold step at h
  split at h
  · simp at h
  · split at h
    · simp at h
    · exact ⟨_, h⟩

end

/-- Settles O12: the fetch returns the encoding of the instruction, and that decodes to it (O1). -/
theorem stepRunsTheInstructionAtThePc : Obligations.StepRunsTheInstructionAtThePc := by
  intro s i h
  have hlen := ilen_range i
  have hopc : s.mem.read (s.pc.toNat + 1) = i.opcode :=
    Option.some.inj ((h 1 (by omega)).2.trans (encode_getElem?_one i))
  have hbytes : (List.range i.ilen).map (fun k => s.mem.read (s.pc.toNat + k)) = encode i := by
    refine List.ext_getElem (by simp [encode_length]) fun k hk hk' => ?_
    have := (h k (by simpa using hk)).2
    rw [List.getElem?_eq_getElem hk'] at this
    simpa using this
  have hfetch : s.fetch = .ok (encode i) := by
    rw [State.fetch_eq_textBytes fun k hk => (h k (by omega)).1, hopc, instrLength_opcode, Option.getD_some,
      State.textBytes_ok fun k hk => (h k hk).1, hbytes]
  have hdecode := encodeThenDecode i []
  rw [List.append_nil] at hdecode
  exact step_of_decode_ok hfetch hdecode

/-- Settles O13: each refusal is that of the fetch, or of the decoder on the bytes fetched. -/
theorem stepRefusesWhatIsNoInstruction : Obligations.StepRefusesWhatIsNoInstruction := by
  intro s opc bytes
  refine ⟨fun hend => ?_, fun hne hout => ?_, fun h2 => ⟨fun hopc => ?_, fun n hn => ⟨fun hout => ?_, fun hin e he => ?_⟩⟩⟩
  · exact step_of_fetch_error (if_pos hend)
  · refine step_of_fetch_error ?_
    unfold State.fetch
    rw [if_neg hne, State.textBytes_out hout]
  · have hnone : instrLength opc = none := instrLength_of_unassigned hopc
    refine step_of_decode_error (bs := bytes 2) ?_ ?_
    · rw [State.fetch_eq_textBytes h2, hnone, Option.getD_none, State.textBytes_ok h2]
    · show decode [_, opc] = _
      unfold decode
      simp only [hnone]
  · refine step_of_fetch_error ?_
    rw [State.fetch_eq_textBytes h2, hn, Option.getD_some, State.textBytes_out hout]
  · have hlen := instrLength_range hn
    have hone : (bytes n)[1]? = some opc := by simp [bytes, opc, show 1 < n by omega]
    have hdecode := decode_append [] hone (by simpa [bytes] using hn)
    rw [List.append_nil, he] at hdecode
    refine step_of_decode_error (bs := bytes n) ?_ hdecode
    rw [State.fetch_eq_textBytes h2, hn, Option.getD_some, State.textBytes_ok hin]

/-! ## What every step keeps -/

section
variable {i : Instr} {s t : State}

/-- What an executed instruction does keeps the canonical form of memory; a store writes inside the address space. -/
theorem Effect.inv (h : Effect i s t) (hs : s.Inv) : t.Inv := by
  cases h with
  | elements => exact hs
  | gpr => exact hs
  | memory _ addr w ha => exact Mem.wf_write64 hs w ha

/-- A byte of the program text reads as before: a store that reaches one of the eight bytes is refused (R38). -/
theorem Effect.read_inText (h : Effect i s t) {a : Nat} (ha : s.inText a = true) : t.mem.read a = s.mem.read a := by
  cases h with
  | elements => rfl
  | gpr => rfl
  | memory _ addr w _ ht =>
    refine Mem.read_write64_out s.mem w ?_
    by_contra hin
    obtain ⟨k, rfl⟩ := Nat.exists_eq_add_of_le (show addr.toNat ≤ a by omega)
    unfold State.overlapsText at ht
    simp only [List.any_eq_false, List.mem_range] at ht
    exact ht k (by omega) ha

end

/-- Settles O14: a step is the exec of an instruction, which is skipped or has an effect that keeps the form. -/
theorem stepKeepsInvariant : Obligations.StepKeepsInvariant := by
  intro s t hs h
  obtain ⟨i, hi⟩ := step_next h
  obtain ⟨_, ⟨_, rfl⟩ | ⟨_, _, he⟩⟩ := exec_next hi
  · exact hs
  · exact he.inv hs

/-- Settles O15: memory lists nothing at reset. -/
theorem invariantAtReset : Obligations.InvariantAtReset := reset_mem_wf

end Sys2Proof.Machine
end

section
/-! PROOFS. The frames of 10_state.md and 60_exceptions.md: what no instruction changes, and what each may answer. -/

namespace Sys2Proof.Machine

/-! ## The predicate test that begins every instruction -/

theorem exec_eq_predicated (i : Instr) (s : State) : ∃ body, exec i s = s.predicated i.pred i.ilen body := by
  cases i <;> exact ⟨_, rfl⟩

/-- Settles O20: every instruction begins with the predicate test, which leaves only the advance of the pc. -/
theorem predicateFalseOnlyAdvancesPc : Obligations.PredicateFalseOnlyAdvancesPc := by
  intro i s hp
  obtain ⟨body, hb⟩ := exec_eq_predicated i s
  rw [hb, State.predicated_false _ _ hp]
  exact ⟨State.advance_eq, State.advance_top⟩

/-! ## What no instruction writes -/

section
variable {i : Instr} {s t : State}

theorem Effect.opaque_eq (h : Effect i s t) :
    t.xlate = s.xlate ∧ t.access = s.access ∧ t.params = s.params ∧ t.textBase = s.textBase ∧ t.textSize = s.textSize := by
  cases h with
  | elements => exact ⟨rfl, rfl, rfl, rfl, rfl⟩
  | gpr => exact ⟨rfl, rfl, rfl, rfl, rfl⟩
  | memory => exact ⟨rfl, rfl, rfl, rfl, rfl⟩

theorem Effect.pc_eq (h : Effect i s t) : t.pc = s.pcAfter i := by
  cases h with
  | elements => rfl
  | gpr => rfl
  | memory => rfl

theorem Effect.x_eq (h : Effect i s t) : WritesGpr i ∨ t.x = s.x := by
  cases h with
  | elements => exact .inr rfl
  | gpr hw => exact .inl hw
  | memory => exact .inr rfl

theorem Effect.mem_eq (h : Effect i s t) : Stores i ∨ t.mem = s.mem := by
  cases h with
  | elements => exact .inr rfl
  | gpr => exact .inr rfl
  | memory hw => exact .inl hw

theorem exec_pc_eq (h : exec i s = .next t) : t.pc = s.pcAfter i := by
  obtain ⟨_, ⟨_, rfl⟩ | ⟨_, _, he⟩⟩ := exec_next h
  · rfl
  · exact he.pc_eq

end

/-- Settles O18: a skipped instruction changes the pc alone, and no effect reaches these fields. -/
theorem noInstructionWritesOpaqueState : Obligations.NoInstructionWritesOpaqueState := by
  intro i s t h
  obtain ⟨_, ⟨_, rfl⟩ | ⟨_, _, he⟩⟩ := exec_next h
  · exact ⟨rfl, rfl, rfl, rfl, rfl⟩
  · exact he.opaque_eq

/-- Settles O16: a step is the exec of an instruction; the text's place is opaque state, and no effect reaches its bytes. -/
theorem stepKeepsProgramText : Obligations.StepKeepsProgramText := by
  intro s t h
  obtain ⟨i, hi⟩ := step_next h
  obtain ⟨_, _, _, hbase, hsize⟩ := noInstructionWritesOpaqueState i s t hi
  refine ⟨hbase, hsize, fun a ha => ?_⟩
  obtain ⟨_, ⟨_, rfl⟩ | ⟨_, _, he⟩⟩ := exec_next hi
  · rfl
  · exact he.read_inText ha

/-- Settles O19: skipped or run, the pc is `pcAfter`, and a next state means that the pc had room. -/
theorem pcAdvancesByLength : Obligations.PcAdvancesByLength := by
  intro i s t h
  rw [exec_pc_eq h]
  exact pc_add_toNat (exec_next h).1

/-- Settles O22: of the effects, only that on general purpose registers is confined to VEX and V2BITS, and the others leave them. -/
theorem onlyVexAndV2bitsWriteGprs : Obligations.OnlyVexAndV2bitsWriteGprs := by
  intro i s t h
  obtain ⟨_, ⟨_, rfl⟩ | ⟨_, _, he⟩⟩ := exec_next h
  · exact .inr rfl
  · exact he.x_eq

/-- Settles O23: of the effects, only that of a store reaches memory. -/
theorem onlyStoresWriteMemory : Obligations.OnlyStoresWriteMemory := by
  intro i s t h
  rw [← or_assoc]
  obtain ⟨_, ⟨_, rfl⟩ | ⟨_, _, he⟩⟩ := exec_next h
  · exact .inr rfl
  · exact he.mem_eq

/-! ## What an instruction is refused for, and what it raises -/

/-- Settles O21: of all that an instruction can answer, only the raise of a load or store is a fault. -/
theorem onlyLoadsAndStoresRaise : Obligations.OnlyLoadsAndStoresRaise := by
  intro i s f h
  have ha := exec_answers i s
  rw [h] at ha
  cases ha with
  | raised hacc e addr => exact ⟨⟨e, addr, rfl⟩, hacc⟩

section
variable {s : State} {p : Pred} {seg un : BitVec 3} {sc : BitVec 2} {v : VReg} {rc rb ra : GReg}

theorem exec_vldx_unused (hp : s.predHolds p = true) (hu : un ≠ 0) :
    exec (.vldx p seg un sc v rc rb ra) s = .refused .unusedBitsSet :=
  (State.predicated_true _ _ hp).trans (if_pos hu)

theorem exec_vstx_unused (hp : s.predHolds p = true) (hu : un ≠ 0) :
    exec (.vstx p seg un sc v rc rb ra) s = .refused .unusedBitsSet :=
  (State.predicated_true _ _ hp).trans (if_pos hu)

end

/-- A load or store that executes tests its vector register before any access. -/
theorem Accesses.exec_missing {i : Instr} (h : Accesses i) {s : State} (hp : s.predHolds i.pred = true) {r : VReg}
    (hr : r ∈ i.vregs) (hmiss : s.hasVReg r = false) : ∃ why, exec i s = .refused why := by
  have hbody {rs : List VReg} {body out : Out} (hrs : i.vregs = rs) (h : out = s.withVRegs rs body) :
      ∃ why, out = .refused why := ⟨_, h.trans (State.withVRegs_missing body (hrs ▸ hr) hmiss)⟩
  obtain ⟨_, _, _, _, _, _, rfl⟩ | ⟨_, _, u, _, _, _, _, _, rfl⟩ | ⟨_, _, _, _, _, _, rfl⟩ |
    ⟨_, _, u, _, _, _, _, _, rfl⟩ := h
  · exact hbody rfl (State.predicated_true _ _ hp)
  · by_cases hu : u ≠ 0
    · exact ⟨_, exec_vldx_unused hp hu⟩
    · exact hbody rfl ((State.predicated_true _ _ hp).trans (if_neg hu))
  · exact hbody rfl (State.predicated_true _ _ hp)
  · by_cases hu : u ≠ 0
    · exact ⟨_, exec_vstx_unused hp hu⟩
    · exact hbody rfl ((State.predicated_true _ _ hp).trans (if_neg hu))

/-- Settles O24: such an instruction cannot have run, was not skipped, and raises nothing. -/
theorem missingVectorRegisterRefused : Obligations.MissingVectorRegisterRefused := by
  intro i s r hp hr hmiss
  have ha := exec_answers i s
  generalize hout : exec i s = out at ha
  cases ha with
  | refused why => exact ⟨why, rfl⟩
  | raised hacc => rw [← hout]; exact hacc.exec_missing hp hr hmiss
  | skipped hp' => rw [hp] at hp'; cases hp'
  | ran _ hv => rw [hv r hr] at hmiss; cases hmiss

/-! ## Register 0 -/

theorem State.gpr_zero {s : State} (h : s.params.r0IsZero = true) : s.gpr 0 = 0 := if_pos ⟨h, rfl⟩

theorem State.setGpr_zero {s : State} (h : s.params.r0IsZero = true) (w : Word) : s.setGpr 0 w = s := if_pos ⟨h, rfl⟩

/-- Settles O25: VEX writes register 0 by `setGpr`, which drops the write under `R0_IS_ZERO`. -/
theorem registerZero : Obligations.RegisterZero := by
  intro s p va ra e hrun hv he hlt
  have hexec := exec_vex_eq_next hrun hv he hlt
  refine ⟨fun h0 => ⟨State.gpr_zero h0, ?_⟩, fun h0 => ⟨_, hexec, ?_⟩⟩
  · rw [hexec, State.setGpr_zero h0]
  · exact (State.gpr_setGpr s 0 0 (s.elem va e)).trans (if_pos ⟨rfl, by simp [h0]⟩)

/-! ## The state at reset -/

/-- At reset the predicate (0, 1) holds and no other does (log 4). -/
theorem reset_predHolds_iff (p : Pred) : State.reset.predHolds p = true ↔ p = ⟨0, 1⟩ := by
  obtain ⟨n, c⟩ := p
  revert n c
  decide

/-- The rule of translation given at reset covers every access and leaves the address as it is (log 7). -/
theorem reset_translate (seg : BitVec 3) (ea : Word) (kind : AccessKind) : State.reset.translate seg ea kind = .ok ea := by
  have hcovers : (⟨none, none, 0, 0xFFFFFFFFFFFFFFFF, .plus 0⟩ : XlateRule).covers seg kind ea = true := by
    have := ea.isLt
    simp [XlateRule.covers, BitVec.le_def]
    omega
  have hanswer : State.reset.xlateAnswer seg ea kind = .plus 0 := by
    simp only [State.xlateAnswer, State.reset, List.find?_cons, hcovers]
  simp only [State.translate, hanswer]
  exact congrArg Except.ok (BitVec.add_zero ea)

/-- The rule of the platform given at reset covers every access and lets it proceed (log 8). -/
theorem reset_memFault (kind : AccessKind) {addr : Word} (h : addr.toNat + 8 ≤ 2 ^ 64) :
    State.reset.memFault kind addr = none := by
  have hcovers : (⟨none, 0, 0xFFFFFFFFFFFFFFFF, none⟩ : AccessRule).covers kind addr = true := by
    have := addr.isLt
    simp [AccessRule.covers, BitVec.le_def]
    omega
  have hanswer : State.reset.platformAnswer kind addr = none := by
    simp only [State.platformAnswer, State.reset, List.find?_cons, hcovers]
  simp only [State.memFault, hanswer, h, if_true]

/-- Settles O26: the fields of `reset`, and the answers of the rules that it gives. -/
theorem resetState : Obligations.ResetState := by
  refine ⟨rfl, fun i => ?_, fun r e => ?_, fun _ => rfl, reset_translate, fun kind _ h => reset_memFault kind h,
    reset_predHolds_iff, fun a => ?_⟩
  · simp [State.gpr, State.reset]
  · simp [State.elem, State.vreg, State.reset]
  · simp [State.inText, State.reset]

end Sys2Proof.Machine
end

section
/-! PROOFS. The family of 30_encoding.md, format V40 (R52), and the spec's example words. -/

namespace Sys2Proof.Machine

/-- Settles O5: each of the eight instructions is encoded in format V40; the provisional code of VBITS2V is 7 (log 12). -/
theorem formatV40Fields : Obligations.FormatV40Fields := by
  intro p a b c
  obtain ⟨hfields, hfunc⟩ := fieldsV40_of_word (i := .vbits2v p a b c) rfl rfl
  have hcode : 6 < ((encodeWord (.vbits2v p a b c)).extractLsb' 34 6).toNat := by rw [hfunc]; decide
  iterate 7 refine and_assoc.1 ⟨fieldsV40_of_word rfl rfl, ?_⟩
  exact ⟨hfields, hcode⟩

/-- Settles O3: the decoder evaluated on the bytes of the six words. -/
theorem exampleWordsDecode : Obligations.ExampleWordsDecode := by
  unfold Obligations.ExampleWordsDecode; decide

end Sys2Proof.Machine
end

section
/-! PROOFS. The family of 40_vector_arith_57h.md: what the two forms of each instruction write and refuse, and that a length form is
its element operations in any order (R80 to R102). -/

namespace Sys2Proof.Machine

/-! ## The operand types -/

/-- The values of `T3` with a meaning, and the types they name (R59, R82). -/
theorem operandType_listed {t : BitVec 3} (h : t = 0 ∨ t = 1 ∨ t = 2) : ∃ ty, operandType t = .ok ty := by
  rcases h with rfl | rfl | rfl <;> exact ⟨_, rfl⟩

theorem operandType_reserved {t : BitVec 3} (h : t = 3 ∨ t = 5 ∨ t = 6 ∨ t = 7) :
    operandType t = .error (.reservedType t) := by
  rcases h with rfl | rfl | rfl | rfl <;> rfl

theorem operandType_quad : operandType 4 = .error .floatQuad := rfl

/-! ## The two forms behind the predicate test and the type test -/

section
variable {i : Instr} {t : BitVec 3} {ty : OperandType} {rs : List VReg} {vt : VReg} {ra : GReg}

/-- An instruction that is a length form behind the predicate test writes the elements below the length and nothing else (R81). -/
theorem lengthFormWrites_of_exec {f : State → ElemIx → Word} (hv : i.vregs = vt :: rs)
    (h : ∀ s, exec i s = s.predicated i.pred i.ilen (s.lengthForm i.ilen rs vt ra (f s))) : LengthFormWrites i vt ra f := by
  intro s ⟨hp, hpc⟩ hr hlen
  unfold State.HasVRegsOf at hr
  rw [hv] at hr
  rw [h, State.predicated_true _ _ hp, State.lengthForm_ok hr hlen hpc]
  exact ⟨_, rfl, rfl, fun r k => State.elem_setElems s vt r _ (f s) k⟩

/-- A typed element form writes what it does in the type that `T3` names. -/
theorem elementFormWrites_typed (f : OperandType → State → ElemIx → Word) (ht : operandType t = .ok ty)
    (hv : i.vregs = vt :: rs)
    (h : ∀ s, exec i s = s.predicated i.pred i.ilen (withType t fun ty => s.elementForm i.ilen rs vt ra (f ty s))) :
    ElementFormWrites i vt ra (f ty) :=
  elementFormWrites_of_exec hv fun s => by rw [h, withType_ok _ ht]

/-- A typed length form writes what it does in the type that `T3` names. -/
theorem lengthFormWrites_typed (f : OperandType → State → ElemIx → Word) (ht : operandType t = .ok ty)
    (hv : i.vregs = vt :: rs)
    (h : ∀ s, exec i s = s.predicated i.pred i.ilen (withType t fun ty => s.lengthForm i.ilen rs vt ra (f ty s))) :
    LengthFormWrites i vt ra (f ty) :=
  lengthFormWrites_of_exec hv fun s => by rw [h, withType_ok _ ht]

/-- An instruction that, where its predicate holds, tests its vector registers and then its length refuses a length above
`VL_MAX` (D9). -/
theorem lengthRefused_of_exec {body : State → Nat → Out}
    (h : ∀ s, exec i s = s.predicated i.pred i.ilen (s.withVRegs i.vregs (s.withLength ra (body s)))) : LengthRefused i ra := by
  intro s hp hv hlen
  rw [h, State.predicated_true _ _ hp, State.withVRegs_ok _ hv, State.withLength_out _ hlen]

theorem indexRefused_typed {body : OperandType → State → ElemIx → Out} (ht : operandType t = .ok ty)
    (h : ∀ s, exec i s =
      s.predicated i.pred i.ilen (withType t fun ty => s.withVRegs i.vregs (s.withIndex ra (body ty s)))) : IndexRefused i ra :=
  indexRefused_of_exec (body := body ty) fun s => by rw [h, withType_ok _ ht]

theorem lengthRefused_typed {body : OperandType → State → Nat → Out} (ht : operandType t = .ok ty)
    (h : ∀ s, exec i s =
      s.predicated i.pred i.ilen (withType t fun ty => s.withVRegs i.vregs (s.withLength ra (body ty s)))) : LengthRefused i ra :=
  lengthRefused_of_exec (body := body ty) fun s => by rw [h, withType_ok _ ht]

end

/-! ## The arithmetic instructions -/

/-- Settles O27: both forms of VADD apply `opAdd` in the type that `T3` names. -/
theorem vaddAdds : Obligations.VaddAdds := by
  intro p vt va vb ra
  have elem t ty (ht : operandType t = .ok ty) := elementFormWrites_typed (i := .vadd p t vt va vb ra)
    (fun ty s e => opAdd ty (s.elem va e) (s.elem vb e)) ht rfl fun _ => rfl
  have len t ty (ht : operandType t = .ok ty) := lengthFormWrites_typed (i := .vaddLen p t vt va vb ra)
    (fun ty s e => opAdd ty (s.elem va e) (s.elem vb e)) ht rfl fun _ => rfl
  exact ⟨elem 0 _ rfl, elem 1 _ rfl, elem 2 _ rfl, len 0 _ rfl, len 1 _ rfl, len 2 _ rfl⟩

/-- Settles O28: both forms of VSUB apply `opSub`, `Va` the minuend. -/
theorem vsubSubtracts : Obligations.VsubSubtracts := by
  intro p vt va vb ra
  have elem t ty (ht : operandType t = .ok ty) := elementFormWrites_typed (i := .vsub p t vt va vb ra)
    (fun ty s e => opSub ty (s.elem va e) (s.elem vb e)) ht rfl fun _ => rfl
  have len t ty (ht : operandType t = .ok ty) := lengthFormWrites_typed (i := .vsubLen p t vt va vb ra)
    (fun ty s e => opSub ty (s.elem va e) (s.elem vb e)) ht rfl fun _ => rfl
  exact ⟨elem 0 _ rfl, elem 1 _ rfl, elem 2 _ rfl, len 0 _ rfl, len 1 _ rfl, len 2 _ rfl⟩

/-- Settles O29: both forms of VMUL apply `opMul`; the product of words is by definition that of their numbers, narrowed (D13). -/
theorem vmulMultiplies : Obligations.VmulMultiplies := by
  intro p vt va vb ra
  have elem t ty (ht : operandType t = .ok ty) := elementFormWrites_typed (i := .vmul p t vt va vb ra)
    (fun ty s e => opMul ty (s.elem va e) (s.elem vb e)) ht rfl fun _ => rfl
  have len t ty (ht : operandType t = .ok ty) := lengthFormWrites_typed (i := .vmulLen p t vt va vb ra)
    (fun ty s e => opMul ty (s.elem va e) (s.elem vb e)) ht rfl fun _ => rfl
  exact ⟨elem 0 _ rfl, elem 1 _ rfl, elem 2 _ rfl, len 0 _ rfl, len 1 _ rfl, len 2 _ rfl⟩

/-- Settles O31: both forms of VSCALE apply `opMul` with the scalar in `x[rb]` as the second operand. -/
theorem vscaleScales : Obligations.VscaleScales := by
  intro p vt va rb ra
  have elem t ty (ht : operandType t = .ok ty) := elementFormWrites_typed (i := .vscale p t vt va rb ra)
    (fun ty s e => opMul ty (s.elem va e) (s.gpr rb)) ht rfl fun _ => rfl
  have len t ty (ht : operandType t = .ok ty) := lengthFormWrites_typed (i := .vscaleLen p t vt va rb ra)
    (fun ty s e => opMul ty (s.elem va e) (s.gpr rb)) ht rfl fun _ => rfl
  exact ⟨elem 0 _ rfl, elem 1 _ rfl, elem 2 _ rfl, len 0 _ rfl, len 1 _ rfl, len 2 _ rfl⟩

/-! ### VDIV -/

/-- The two operand pairs for which the spec states no quotient, as signed numbers (U10). -/
theorem iDiv_corner_iff (a b : Word) :
    (b = 0 ∨ (a = 0x8000000000000000 ∧ b = 0xFFFFFFFFFFFFFFFF)) ↔ b = 0 ∨ (a.toInt = -2 ^ 63 ∧ b.toInt = -1) := by
  have ha : a = 0x8000000000000000 ↔ a.toInt = -2 ^ 63 := BitVec.toInt_inj.symm
  have hb : b = 0xFFFFFFFFFFFFFFFF ↔ b.toInt = -1 := BitVec.toInt_inj.symm
  rw [ha, hb]

theorem iDiv_corner {a b : Word} (h : b = 0 ∨ (a.toInt = -2 ^ 63 ∧ b.toInt = -1)) : iDiv a b = Config.iDivCorner a b :=
  if_pos ((iDiv_corner_iff a b).2 h)

/-- Outside the corners the quotient of two 64-bit signed numbers is one again (R92, D15). -/
theorem iDiv_toInt {a b : Word} (hb : b ≠ 0) (h : a.toInt = -2 ^ 63 → b.toInt ≠ -1) :
    (iDiv a b).toInt = a.toInt.tdiv b.toInt := by
  have hcorner : ¬(b = 0 ∨ (a = 0x8000000000000000 ∧ b = 0xFFFFFFFFFFFFFFFF)) := by
    rw [iDiv_corner_iff]; rintro (hz | ⟨ha, hm⟩)
    · exact hb hz
    · exact h ha hm
  rw [iDiv, if_neg hcorner, BitVec.toInt_ofInt, ← BitVec.toInt_sdiv]
  refine BitVec.toInt_sdiv_of_ne_or_ne a b ?_
  by_cases ha : a = BitVec.intMin 64
  · exact .inr fun hm => h (by rw [ha]; rfl) (by rw [hm]; rfl)
  · exact .inl ha

/-- Settles O30: both forms of VDIV apply `opDiv`, whose integer case is `iDiv`. -/
theorem vdivDivides : Obligations.VdivDivides := by
  refine ⟨fun p vt va vb ra => ?_, fun a b => iDiv_toInt, fun a b => iDiv_corner⟩
  have elem t ty (ht : operandType t = .ok ty) := elementFormWrites_typed (i := .vdiv p t vt va vb ra)
    (fun ty s e => opDiv ty (s.elem va e) (s.elem vb e)) ht rfl fun _ => rfl
  have len t ty (ht : operandType t = .ok ty) := lengthFormWrites_typed (i := .vdivLen p t vt va vb ra)
    (fun ty s e => opDiv ty (s.elem va e) (s.elem vb e)) ht rfl fun _ => rfl
  exact ⟨elem 0 _ rfl, elem 1 _ rfl, elem 2 _ rfl, len 0 _ rfl, len 1 _ rfl, len 2 _ rfl⟩

/-! ### VCMP -/

/-- The integer comparison: equal words are those whose signed numbers are equal (D14). -/
theorem opCmp_integer (a b : Word) :
    opCmp .integer a b = if a.toInt < b.toInt then BitVec.allOnes 64 else if a = b then 0 else 1 := by
  simp only [opCmp, signedOrder, BitVec.toInt_inj]
  split
  · rfl
  · split <;> rfl

/-- Settles O32: both forms of VCMP apply `opCmp`, the three-way result of the signed order or of `FCmp`. -/
theorem vcmpCompares : Obligations.VcmpCompares := by
  intro p vt va vb ra int float
  have elem t ty (ht : operandType t = .ok ty) := elementFormWrites_typed (i := .vcmp p t vt va vb ra)
    (fun ty s e => opCmp ty (s.elem va e) (s.elem vb e)) ht rfl fun _ => rfl
  have len t ty (ht : operandType t = .ok ty) := lengthFormWrites_typed (i := .vcmpLen p t vt va vb ra)
    (fun ty s e => opCmp ty (s.elem va e) (s.elem vb e)) ht rfl fun _ => rfl
  have hint : (fun s e => opCmp .integer (s.elem va e) (s.elem vb e)) = int := by
    funext s e; exact opCmp_integer _ _
  have hfloat f : (fun s e => opCmp (.float f) (s.elem va e) (s.elem vb e)) = float f := by
    funext s e
    simp only [opCmp, float]
    cases Config.fCmp f (s.elem va e) (s.elem vb e) <;> rfl
  rw [← hint, ← hfloat, ← hfloat]
  exact ⟨elem 0 _ rfl, elem 1 _ rfl, elem 2 _ rfl, len 0 _ rfl, len 1 _ rfl, len 2 _ rfl⟩

/-! ### VAND, VOR and VEOR -/

/-- Settles O33: the six are the two forms behind the predicate test alone. -/
theorem logicalBitwise : Obligations.LogicalBitwise := by
  intro p vt va vb ra
  exact ⟨elementFormWrites_of_exec rfl fun _ => rfl, lengthFormWrites_of_exec rfl fun _ => rfl,
    elementFormWrites_of_exec rfl fun _ => rfl, lengthFormWrites_of_exec rfl fun _ => rfl,
    elementFormWrites_of_exec rfl fun _ => rfl, lengthFormWrites_of_exec rfl fun _ => rfl⟩

/-! ## What the 57h instructions are refused for -/

/-- Settles O34: the type is tested right after the predicate. -/
theorem reservedTypesRefused : Obligations.ReservedTypesRefused := by
  intro s p t vt va vb rb ra i hi hp
  have hexec : ∃ body, exec i s = s.predicated p 6 (withType t body) := by
    simp only [List.mem_cons, List.not_mem_nil, or_false] at hi
    rcases hi with rfl | rfl | rfl | rfl | rfl | rfl | rfl | rfl | rfl | rfl | rfl | rfl <;> exact ⟨_, rfl⟩
  obtain ⟨body, hbody⟩ := hexec
  rw [hbody, State.predicated_true _ _ hp]
  refine ⟨fun ht => withType_error _ (operandType_reserved ht), fun ht => ?_⟩
  subst ht
  exact withType_error _ operandType_quad

/-- Settles O35: with a listed type the vector registers are tested next, then the index or the length. -/
theorem indexAndLengthOutOfRangeRefused : Obligations.IndexAndLengthOutOfRangeRefused := by
  intro p t vt va vb rb ra ht
  obtain ⟨ty, hty⟩ := operandType_listed ht
  constructor
  · exact ⟨indexRefused_typed hty fun _ => rfl, indexRefused_typed hty fun _ => rfl, indexRefused_typed hty fun _ => rfl,
      indexRefused_typed hty fun _ => rfl, indexRefused_typed hty fun _ => rfl, indexRefused_typed hty fun _ => rfl,
      indexRefused_of_exec fun _ => rfl, indexRefused_of_exec fun _ => rfl, indexRefused_of_exec fun _ => rfl⟩
  · exact ⟨lengthRefused_typed hty fun _ => rfl, lengthRefused_typed hty fun _ => rfl, lengthRefused_typed hty fun _ => rfl,
      lengthRefused_typed hty fun _ => rfl, lengthRefused_typed hty fun _ => rfl, lengthRefused_typed hty fun _ => rfl,
      lengthRefused_of_exec fun _ => rfl, lengthRefused_of_exec fun _ => rfl, lengthRefused_of_exec fun _ => rfl⟩

/-! ## A length form is its element operations, in any order -/

/-- The value of the element operation at an index depends on the general purpose registers and on the elements at that
index. -/
def ReadsItsIndex (f : State → ElemIx → Word) : Prop :=
  ∀ (s s' : State) (e : ElemIx), s'.gpr = s.gpr → (∀ r, s'.elem r e = s.elem r e) → f s' e = f s e

theorem readsItsIndex_elems {va vb : VReg} (op : Word → Word → Word) :
    ReadsItsIndex fun s e => op (s.elem va e) (s.elem vb e) := by
  intro s s' e _ he
  simp only [he]

theorem readsItsIndex_scalar {va : VReg} {rb : GReg} (op : Word → Word → Word) :
    ReadsItsIndex fun s e => op (s.elem va e) (s.gpr rb) := by
  intro s s' e hg he
  simp only [hg, he]

section
variable {f : State → ElemIx → Word} {vt : VReg}

/-- Element operations change the field `v` only. -/
theorem State.eachElement_eq (s : State) (l : List ElemIx) :
    s.eachElement vt f l = { s with v := (s.eachElement vt f l).v } := by
  induction l generalizing s with
  | nil => rfl
  | cons e l ih => exact ih (s.setElem vt e (f s e))

/-- Each listed element holds its operation's value in the state before, since no other element operation writes what it reads. -/
theorem State.elem_eachElement (hf : ReadsItsIndex f) (s : State) {l : List ElemIx} (hl : l.Nodup) (r : VReg) (k : ElemIx) :
    (s.eachElement vt f l).elem r k = if r = vt ∧ k ∈ l then f s k else s.elem r k := by
  induction l generalizing s with
  | nil => simp [State.eachElement]
  | cons e l ih =>
    obtain ⟨hel, hl⟩ := List.nodup_cons.1 hl
    have hstep : (s.eachElement vt f (e :: l)) = (s.setElem vt e (f s e)).eachElement vt f l := rfl
    rw [hstep, ih _ hl, State.elem_setElem]
    by_cases hke : k = e
    · subst hke; simp [hel]
    · have hfk : f (s.setElem vt e (f s e)) k = f s k :=
        hf _ _ _ rfl fun r => by rw [State.elem_setElem, if_neg fun c => hke c.2]
      simp [hke, hfk]

/-- A length form that completes leaves what its element operations leave in the order of any list of the indexes below the
length. -/
theorem State.lengthForm_eq_eachElement (hf : ReadsItsIndex f) {s t : State} {n : Nat} {rs : List VReg} {ra : GReg}
    {l : List ElemIx} (hl : l.Nodup) (hmem : ∀ e : ElemIx, e ∈ l ↔ e.val < (s.gpr ra).toNat)
    (h : s.lengthForm n rs vt ra (f s) = .next t) :
    t = { s.eachElement vt f l with pc := s.pc + BitVec.ofNat 64 n } := by
  rcases State.lengthForm_cases h with ⟨_, ht⟩ | ⟨_, _, _, ht⟩
  · cases ht
  · have hv : (s.setElems vt (s.gpr ra).toNat (f s)).v = (s.eachElement vt f l).v := State.v_ext fun r k => by
      simp only [State.elem_setElems, State.elem_eachElement hf s hl, hmem]
    cases ht
    rw [hv, State.eachElement_eq]

end

/-- What completes behind the predicate test and the type test completes by itself, in the type that `T3` names. -/
theorem body_next_of_typed {s t : State} {p : Pred} {n : Nat} {ty : BitVec 3} {ot : OperandType} {body : OperandType → Out}
    (hp : s.predHolds p = true) (hty : operandType ty = .ok ot) (h : s.predicated p n (withType ty body) = .next t) :
    body ot = .next t := by
  rwa [State.predicated_true _ _ hp, withType_ok _ hty] at h

theorem body_next {s t : State} {p : Pred} {n : Nat} {body : Out} (hp : s.predHolds p = true)
    (h : s.predicated p n body = .next t) : body = .next t := by
  rwa [State.predicated_true _ _ hp] at h

/-- Settles O36: each of the nine reads what it writes from elements of the same index, so one element operation does not disturb
another. -/
theorem lengthFormIsElementsInAnyOrder : Obligations.LengthFormIsElementsInAnyOrder := by
  intro s t p ty vt va vb rb ra ot l i f hi hp hty h hl hmem
  suffices hform : i.ilen = 6 ∧ ReadsItsIndex f ∧ ∃ rs, s.lengthForm 6 rs vt ra (f s) = .next t by
    obtain ⟨hn, hf, rs, hform⟩ := hform
    rw [State.lengthForm_eq_eachElement hf hl hmem hform, State.pcAfter, hn]
  rcases hi with ⟨rfl, rfl⟩ | ⟨rfl, rfl⟩ | ⟨rfl, rfl⟩ | ⟨rfl, rfl⟩ | ⟨rfl, rfl⟩ | ⟨rfl, rfl⟩ | ⟨rfl, rfl⟩ | ⟨rfl, rfl⟩ | ⟨rfl, rfl⟩
  · exact ⟨rfl, readsItsIndex_elems (opAdd ot), _, body_next_of_typed hp hty h⟩
  · exact ⟨rfl, readsItsIndex_elems (opSub ot), _, body_next_of_typed hp hty h⟩
  · exact ⟨rfl, readsItsIndex_elems (opMul ot), _, body_next_of_typed hp hty h⟩
  · exact ⟨rfl, readsItsIndex_elems (opDiv ot), _, body_next_of_typed hp hty h⟩
  · exact ⟨rfl, readsItsIndex_elems (opCmp ot), _, body_next_of_typed hp hty h⟩
  · exact ⟨rfl, readsItsIndex_scalar (opMul ot), _, body_next_of_typed hp hty h⟩
  · exact ⟨rfl, readsItsIndex_elems (· &&& ·), _, body_next hp h⟩
  · exact ⟨rfl, readsItsIndex_elems (· ||| ·), _, body_next hp h⟩
  · exact ⟨rfl, readsItsIndex_elems (· ^^^ ·), _, body_next hp h⟩

end Sys2Proof.Machine
end

section
/-! PROOFS. The family of 41_vector_misc_56h.md: what its instructions share, the conversions, the shifts, and bits to a vector and
back (R121 to R130). -/

namespace Sys2Proof.Machine

/-! ## What the 56h instructions share -/

/-- The instructions of opcode 56h are 5 bytes long (R50). -/
theorem ilen_of_opcV40 {i : Instr} (h : i.opcode = 0x56) : i.ilen = 5 := by
  have hn := instrLength_opcode i
  rw [h] at hn
  exact (Option.some.inj hn).symm

/-- No load or store has the opcode 56h. -/
theorem not_accesses_of_opcV40 {i : Instr} (h : i.opcode = 0x56) : ¬Accesses i := by
  rintro (⟨_, _, _, _, _, _, rfl⟩ | ⟨_, _, _, _, _, _, _, _, rfl⟩ | ⟨_, _, _, _, _, _, rfl⟩ | ⟨_, _, _, _, _, _, _, _, rfl⟩) <;>
    exact absurd h (by simp only [Instr.opcode]; decide)

/-- Settles O37: by what any instruction can do, and by the test of each one's index or length. -/
theorem misc56SharedRule : Obligations.Misc56SharedRule := by
  refine ⟨fun i s hopc => ?_, fun p a b c => ?_⟩
  · have hafter : s.pcAfter i = s.pc + 5 := by rw [State.pcAfter, ilen_of_opcV40 hopc]; rfl
    refine ⟨exec_ne_fault (not_accesses_of_opcV40 hopc) s, fun t h => ⟨exec_pred_eq h, (exec_pc_eq h).trans hafter⟩, ?_⟩
    intro hp hpc
    obtain ⟨hskip, _⟩ := predicateFalseOnlyAdvancesPc i s hp
    rw [hskip (by rw [ilen_of_opcV40 hopc]; exact hpc), hafter]
  · exact ⟨indexRefused_of_exec fun _ => rfl, indexRefused_of_exec fun _ => rfl, lengthRefused_of_exec fun _ => rfl,
      lengthRefused_of_exec fun _ => rfl, lengthRefused_of_exec fun _ => rfl, lengthRefused_of_exec fun _ => rfl,
      lengthRefused_of_exec fun _ => rfl, lengthRefused_of_exec fun _ => rfl⟩

/-! ## VBITS2V and the conversions -/

/-- A bit of a register as an element is the digit of the register at that place (R123). -/
theorem boolElem_eq_digit (w : Word) (e : ElemIx) : boolElem w e = BitVec.ofNat 64 (w.toNat / 2 ^ e.val % 2) := by
  unfold boolElem BitVec.getLsbD
  rw [Nat.testBit_eq_decide_div_mod_eq]
  rcases Nat.mod_two_eq_zero_or_one (w.toNat / 2 ^ e.val) with h | h <;> rw [h] <;> rfl

/-- Settles O38: the length form of `boolElem`. -/
theorem vbits2vSpreadsBits : Obligations.Vbits2vSpreadsBits := by
  intro p vt rb ra
  simp only [← boolElem_eq_digit]
  exact lengthFormWrites_of_exec rfl fun _ => rfl

/-- Settles O41: the length forms of the two conversions. -/
theorem conversionsConvert : Obligations.ConversionsConvert := fun _ _ _ _ =>
  ⟨lengthFormWrites_of_exec rfl fun _ => rfl, lengthFormWrites_of_exec rfl fun _ => rfl⟩

/-! ## The shifts -/

section
variable {s : State} {p : Pred} {vt va : VReg} {ra : GReg}

/-- VSHL where its operands pass their tests (R128). -/
theorem exec_vshl_eq_next (hrun : s.Runs (.vshl p vt va ra)) (hv : s.HasVRegsOf (.vshl p vt va ra))
    (hlen : (s.gpr ra).toNat < s.vlMax) :
    exec (.vshl p vt va ra) s = .next { s with
      pc := s.pcAfter (.vshl p vt va ra)
      v := (s.setElems vt ((s.gpr ra).toNat + 1) fun e => if e.val = 0 then 0 else s.elem va (elemBelow e)).v } := by
  obtain ⟨hp, hpc⟩ := hrun
  refine (State.predicated_true _ _ hp).trans ((State.withVRegs_ok _ hv).trans ((State.withLength_ok _ hlen.le).trans ?_))
  exact (if_neg hlen.ne).trans (State.advance_eq hpc)

/-- VSHR where its operands pass their tests (R129). -/
theorem exec_vshr_eq_next (hrun : s.Runs (.vshr p vt va ra)) (hv : s.HasVRegsOf (.vshr p vt va ra))
    (hpos : 0 < (s.gpr ra).toNat) (hlen : (s.gpr ra).toNat ≤ s.vlMax) :
    exec (.vshr p vt va ra) s = .next { s with
      pc := s.pcAfter (.vshr p vt va ra)
      v := (s.setElems vt (s.gpr ra).toNat fun e =>
        if e.val + 1 = (s.gpr ra).toNat then 0 else s.elem va (elemAbove e)).v } := by
  obtain ⟨hp, hpc⟩ := hrun
  refine (State.predicated_true _ _ hp).trans ((State.withVRegs_ok _ hv).trans ((State.withLength_ok _ hlen).trans ?_))
  exact (if_neg hpos.ne').trans (State.advance_eq hpc)

end

theorem elemBelow_eq {k j : ElemIx} (h : k.val = j.val + 1) : elemBelow k = j := Fin.ext (by simp [elemBelow, h])

theorem elemAbove_eq {k j : ElemIx} (h : j.val = k.val + 1) : elemAbove k = j :=
  Fin.ext (by have := j.isLt; simp only [elemAbove]; omega)

/-- Settles O42: the elements 0 to `n` are written, each from the one below it in the state before. -/
theorem vshlShiftsUp : Obligations.VshlShiftsUp := by
  intro s p vt va ra hrun hv
  refine ⟨fun hlen => ⟨_, exec_vshl_eq_next hrun hv hlen, rfl, fun k hk => ?_, fun k j hkj hk => ?_, fun r k hrk => ?_⟩,
    fun hlen => ?_⟩
  · exact (State.elem_setElems ..).trans ((if_pos ⟨rfl, by omega⟩).trans (if_pos hk))
  · rw [← elemBelow_eq hkj]
    exact (State.elem_setElems ..).trans ((if_pos ⟨rfl, by omega⟩).trans (if_neg (by omega)))
  · refine (State.elem_setElems ..).trans (if_neg ?_)
    rintro ⟨hr, hk⟩
    exact hrk.elim (fun hne => hne hr) (fun hlt => by omega)
  · refine (State.predicated_true _ _ hrun.1).trans ((State.withVRegs_ok _ hv).trans ((State.withLength_ok _ hlen.le).trans ?_))
    exact if_pos hlen

/-- Settles O43: the elements 0 to `n - 1` are written, each from the one above it in the state before. -/
theorem vshrShiftsDown : Obligations.VshrShiftsDown := by
  intro s p vt va ra hrun hv
  refine ⟨fun hpos hlen => ⟨_, exec_vshr_eq_next hrun hv hpos hlen, rfl, fun k hk => ?_, fun k j hkj hk => ?_,
    fun r k hrk => ?_⟩, fun hzero => ?_⟩
  · exact (State.elem_setElems ..).trans ((if_pos ⟨rfl, by omega⟩).trans (if_pos hk))
  · rw [← elemAbove_eq hkj]
    exact (State.elem_setElems ..).trans ((if_pos ⟨rfl, by omega⟩).trans (if_neg (by omega)))
  · refine (State.elem_setElems ..).trans (if_neg ?_)
    rintro ⟨hr, hk⟩
    exact hrk.elim (fun hne => hne hr) (fun hle => by omega)
  · refine (State.predicated_true _ _ hrun.1).trans
      ((State.withVRegs_ok _ hv).trans ((State.withLength_ok _ (by omega)).trans ?_))
    exact if_pos hzero

/-! ## V2BITS -/

section
variable {s : State} {p : Pred} {rt : GReg} {va : VReg} {ra : GReg}

theorem State.gpr_v2bitsUpper (r : GReg) : (s.v2bitsUpper rt).2.gpr r = s.gpr r := by rw [State.v2bitsUpper_eq]; rfl

/-- The bits that V2BITS leaves above the length: zeros, or those of the register (R130, D19). -/
theorem State.v2bitsUpper_zero (h : s.params.v2bitsUpper = .zero) : (s.v2bitsUpper rt).1 = 0 := by
  unfold State.v2bitsUpper; rw [h]

theorem State.v2bitsUpper_preserve (h : s.params.v2bitsUpper = .preserve) : (s.v2bitsUpper rt).1 = s.gpr rt := by
  unfold State.v2bitsUpper; rw [h]

/-- V2BITS where its operands pass their tests: the free draw, if there is one, and then the write of `x[rt]` (R130). -/
theorem exec_v2bits_eq_next (hrun : s.Runs (.v2bits p rt va ra)) (hv : s.HasVRegsOf (.v2bits p rt va ra))
    (hlen : (s.gpr ra).toNat ≤ s.vlMax) :
    exec (.v2bits p rt va ra) s = .next
      { (s.v2bitsUpper rt).2.setGpr rt (s.gatherBits va (s.gpr ra).toNat (s.v2bitsUpper rt).1) with
        pc := s.pcAfter (.v2bits p rt va ra) } := by
  obtain ⟨hp, hpc⟩ := hrun
  refine (State.predicated_true _ _ hp).trans ((State.withVRegs_ok _ hv).trans ((State.withLength_ok _ hlen).trans ?_))
  rw [State.advance_eq (by rw [State.setGpr_pc, State.v2bitsUpper_pc]; exact hpc), State.setGpr_pc, State.v2bitsUpper_pc]
  rfl

end

/-- Settles O44: the register written holds the gathered bits, those of the elements below the length and the upper ones above. -/
theorem v2bitsGathers : Obligations.V2bitsGathers := by
  intro s p rt va ra hrun hv hlen
  have hgpr w r : ((s.v2bitsUpper rt).2.setGpr rt w).gpr r =
      if r = rt ∧ ¬(s.params.r0IsZero = true ∧ rt = 0) then w else s.gpr r := by
    rw [State.gpr_setGpr, State.v2bitsUpper_params, State.gpr_v2bitsUpper]
  refine ⟨_, exec_v2bits_eq_next hrun hv hlen, ?_, fun hany => ?_, fun r hr => ?_, fun h0 => ?_⟩
  · rw [State.setGpr_eq, State.v2bitsUpper_eq]
  · rw [State.setGpr_freeIx, State.v2bitsUpper_freeIx, if_neg hany]
  · exact (hgpr _ r).trans (if_neg fun c => hr.elim (fun hne => hne c.1) c.2)
  · have hrt w : ((s.v2bitsUpper rt).2.setGpr rt w).gpr rt = w := (hgpr w rt).trans (if_pos ⟨rfl, h0⟩)
    refine ⟨fun k hk => ?_, fun k hk hlt => ?_⟩
    · exact (congrArg (·.getLsbD k.val) (hrt _)).trans ((State.gatherBits_getLsbD ..).trans (if_pos hk))
    · have hupper := (congrArg (·.getLsbD k) (hrt _)).trans
        ((State.gatherBits_getLsbD s va (s.gpr ra).toNat (s.v2bitsUpper rt).1 ⟨k, hlt⟩).trans (if_neg (Nat.not_lt.2 hk)))
      refine ⟨fun hz => hupper.trans ?_, fun hpres => hupper.trans ?_⟩
      · rw [State.v2bitsUpper_zero hz]; exact BitVec.getLsbD_zero
      · rw [State.v2bitsUpper_preserve hpres]

/-! ## Two instructions, one after the other -/

section
variable {i : Instr} {s t : State} {ra : GReg}

/-- An instruction that executes and completes had room for the pc and existing vector registers. -/
theorem runs_of_exec_next (h : exec i s = .next t) (hp : s.predHolds i.pred = true) : s.Runs i ∧ s.HasVRegsOf i := by
  obtain ⟨hpc, ⟨hp', _⟩ | ⟨_, hv, _⟩⟩ := exec_next h
  · rw [hp] at hp'; cases hp'
  · exact ⟨⟨hp, hpc⟩, hv⟩

theorem length_le_of_exec_next (hr : LengthRefused i ra) (h : exec i s = .next t) (hp : s.predHolds i.pred = true) :
    (s.gpr ra).toNat ≤ s.vlMax := by
  obtain ⟨_, hv⟩ := runs_of_exec_next h hp
  by_contra hlen
  rw [hr s hp hv (by omega)] at h
  cases h

theorem index_lt_of_exec_next (hr : IndexRefused i ra) (h : exec i s = .next t) (hp : s.predHolds i.pred = true) :
    (s.gpr ra).toNat < s.vlMax := by
  obtain ⟨_, hv⟩ := runs_of_exec_next h hp
  by_contra hix
  rw [hr s hp hv (by omega)] at h
  cases h

theorem vlMax_le (s : State) : s.vlMax ≤ 64 := s.params.elemTop.isLt

theorem next_inj {s' : State} (h : exec i s = .next t) (h' : exec i s = .next s') : t = s' :=
  Host.Outcome.next.inj (h.symm.trans h')

theorem WroteElements.gpr_eq (h : WroteElements i s t) : t.gpr = s.gpr := by rw [h]; rfl

theorem WroteElements.params_eq (h : WroteElements i s t) : t.params = s.params := by rw [h]

end

/-- A word with a register's bits below `n` and zeros above is the register modulo `2 ^ n`. -/
theorem toNat_eq_mod_two_pow {w x : Word} {n : Nat} (hlow : ∀ k < 64, k < n → w.getLsbD k = x.getLsbD k)
    (hhigh : ∀ k, n ≤ k → k < 64 → w.getLsbD k = false) : w.toNat = x.toNat % 2 ^ n := by
  refine Nat.eq_of_testBit_eq fun k => ?_
  rw [Nat.testBit_mod_two_pow]
  change w.getLsbD k = (decide (k < n) && x.getLsbD k)
  by_cases h64 : k < 64
  · by_cases hn : k < n
    · simp [hn, hlow k h64 hn]
    · simp [hn, hhigh k (by omega) h64]
  · simp [BitVec.getLsbD_of_ge _ k (Nat.le_of_not_lt h64)]

theorem digit_getLsbD_zero (w : Word) (e : ElemIx) :
    (BitVec.ofNat 64 (w.toNat / 2 ^ e.val % 2)).getLsbD 0 = w.getLsbD e.val := by
  rw [← boolElem_eq_digit, boolElem]
  cases w.getLsbD e.val <;> rfl

/-- Settles O45: the low bit of each element that VBITS2V wrote is the bit of the register it was made of. -/
theorem bitsToVectorAndBack : Obligations.BitsToVectorAndBack := by
  intro s t u p q v rb ra rt hp hq hzero h0 hexec hexec'
  obtain ⟨hrun, hv⟩ := runs_of_exec_next hexec hp
  obtain ⟨hrun', hv'⟩ := runs_of_exec_next hexec' hq
  have hlen := length_le_of_exec_next (lengthRefused_of_exec fun _ => rfl) hexec hp
  have hlen' := length_le_of_exec_next (lengthRefused_of_exec fun _ => rfl) hexec' hq
  obtain ⟨t', ht', hwrote, helem⟩ := vbits2vSpreadsBits p v rb ra s hrun hv hlen
  obtain rfl := next_inj ht' hexec
  obtain ⟨u', hu', -, -, -, hbits⟩ := v2bitsGathers t' q rt v ra hrun' hv' hlen'
  obtain rfl := next_inj hu' hexec'
  rw [hwrote.gpr_eq, hwrote.params_eq] at hbits
  obtain ⟨hlow, hhigh⟩ := hbits h0
  refine toNat_eq_mod_two_pow (fun k h64 hk => ?_) fun k hk h64 => (hhigh k hk h64).1 hzero
  rw [hlow ⟨k, h64⟩ hk, helem, if_pos ⟨rfl, hk⟩]
  exact digit_getLsbD_zero _ _

/-- Settles O46: VEX reads the element that VEINS wrote, at the same index. -/
theorem insertThenExtract : Obligations.InsertThenExtract := by
  intro s t u p q v rb ra rt hp hq h0 hexec hexec'
  obtain ⟨-, -, hwrites, hrefused, -⟩ := veinsInserts p v rb ra
  obtain ⟨-, -, hreads, -⟩ := vexExtracts q rt v ra
  obtain ⟨hrun, hv⟩ := runs_of_exec_next hexec hp
  obtain ⟨hrun', hv'⟩ := runs_of_exec_next hexec' hq
  have hix := index_lt_of_exec_next hrefused hexec hp
  have h64 := vlMax_le s
  obtain ⟨t', ht', hwrote, helem⟩ := hwrites s ⟨(s.gpr ra).toNat, by omega⟩ hrun hv rfl hix
  obtain rfl := next_inj ht' hexec
  have hvl : t'.vlMax = s.vlMax := by rw [State.vlMax, hwrote.params_eq, State.vlMax]
  obtain ⟨u', hu', -, hgpr⟩ := hreads t' ⟨(s.gpr ra).toNat, by omega⟩ hrun' hv' (by rw [hwrote.gpr_eq]) (by rw [hvl]; exact hix)
  obtain rfl := next_inj hu' hexec'
  rw [hgpr, hwrote.params_eq, if_pos ⟨rfl, h0⟩, helem, if_pos ⟨rfl, rfl⟩]

end Sys2Proof.Machine
end

section
/-! PROOFS. The family of 42_vector_loadstore.md: effective addresses, what loads and stores do, and what they answer where the
access does not reach memory (R140 to R145, R171, R172). -/

namespace Sys2Proof.Machine

/-! ## Effective addresses -/

/-- Settles O47: sign extension keeps the signed number, and the shift by `Sc2` is the product with its power of 2. -/
theorem effectiveAddresses : Obligations.EffectiveAddresses := by
  intro s disp sc rb ra
  constructor
  · rw [State.eaDisp, BitVec.toInt_add, BitVec.toInt_signExtend_of_le (by omega)]
  · rw [State.eaIndexed, BitVec.toNat_add, BitVec.toNat_shiftLeft, Nat.shiftLeft_eq, Nat.add_mod_mod]

/-! ## The access sequence where it stops -/

section
variable {s : State} {kind : AccessKind} {seg : BitVec 3} {ea addr : Word} {k : Word → Out}

theorem State.accessAt_misaligned (hm : s.params.misaligned = .refuse) (ha : ea.toNat % 8 ≠ 0) :
    s.accessAt kind seg ea k = .refused .misalignedAccess := if_pos ⟨hm, ha⟩

theorem State.accessAt_translate_error (ha : s.params.misaligned = .refuse → ea.toNat % 8 = 0) {x : Exc}
    (ht : s.translate seg ea kind = .error x) : s.accessAt kind seg ea k = .fault (.raised x s.pc none) := by
  unfold State.accessAt
  rw [if_neg fun c => c.2 (ha c.1), ht]
  rfl

/-- What the platform's answer makes of an access that it does not let proceed (R35, R171). -/
def State.stopped (s : State) (addr : Word) : AccessAnswer → Out
  | .dbe => .fault (.raised .dbe s.pc (some addr))
  | .dbg => .fault (.raised .dbg s.pc (some addr))
  | .device => .refused .notOrdinaryMemory

theorem State.accessAt_memFault (ha : s.params.misaligned = .refuse → ea.toNat % 8 = 0)
    (ht : s.translate seg ea kind = .ok addr) {a : AccessAnswer} (hm : s.memFault kind addr = some a) :
    s.accessAt kind seg ea k = s.stopped addr a := by
  unfold State.accessAt
  rw [if_neg fun c => c.2 (ha c.1), ht]
  simp only [hm]
  cases a <;> rfl

end

/-! ## The four instructions as one -/

/-- `MemRead(addr, 8)` into the element `e`, the end of a load whose access reaches memory (R142). -/
def State.loadAt (s : State) (vt : VReg) (e : ElemIx) (addr : Word) : Out :=
  (s.setElem vt e (s.mem.read64 addr.toNat)).advance 6

/-- `MemWrite(addr, 8, ...)` of the element `e`, the end of a store whose access reaches memory (R38, R144). -/
def State.storeAt (s : State) (vs : VReg) (e : ElemIx) (addr : Word) : Out :=
  if s.overlapsText addr.toNat then .refused .storeToProgramText
  else ({ s with mem := s.mem.write64 addr.toNat (s.elem vs e) } : State).advance 6

/-- In `s` the instruction `i`, where the predicate `p` holds, accesses the offset `ea` in the segment `seg` for the element of `v`
that `ix` numbers, and goes on with `k`. -/
structure AccessesAt (s : State) (i : Instr) (p : Pred) (kind : AccessKind) (seg : BitVec 3) (ea : Word) (v : VReg) (ix : GReg)
    (k : ElemIx → Word → Out) : Prop where
  pred : i.pred = p
  vregs : i.vregs = [v]
  ilen : i.ilen = 6
  indexRefused : IndexRefused i ix
  exec_eq : exec i s = s.predicated p 6 (s.withVRegs [v] (s.withIndex ix fun e => s.accessAt kind seg ea (k e)))

section
variable {s : State} {p : Pred} {seg : BitVec 3} {disp : BitVec 11} {sc : BitVec 2} {v : VReg} {rc rb ra : GReg}

theorem accessesAt_vld :
    AccessesAt s (.vld p seg disp v rb ra) p .load seg (s.eaDisp disp ra) v rb (s.loadAt v) :=
  ⟨rfl, rfl, rfl, indexRefused_of_exec fun _ => rfl, rfl⟩

theorem accessesAt_vldx :
    AccessesAt s (.vldx p seg 0 sc v rc rb ra) p .load seg (s.eaIndexed sc rb ra) v rc (s.loadAt v) :=
  ⟨rfl, rfl, rfl, indexRefused_of_exec fun _ => rfl, rfl⟩

theorem accessesAt_vst :
    AccessesAt s (.vst p seg disp v rb ra) p .store seg (s.eaDisp disp ra) v rb (s.storeAt v) :=
  ⟨rfl, rfl, rfl, indexRefused_of_exec fun _ => rfl, rfl⟩

theorem accessesAt_vstx :
    AccessesAt s (.vstx p seg 0 sc v rc rb ra) p .store seg (s.eaIndexed sc rb ra) v rc (s.storeAt v) :=
  ⟨rfl, rfl, rfl, indexRefused_of_exec fun _ => rfl, rfl⟩

end

section
variable {s t : State} {i : Instr} {p : Pred} {kind : AccessKind} {seg : BitVec 3} {ea addr : Word} {v : VReg} {ix : GReg}
  {k : ElemIx → Word → Out} {e : ElemIx}

/-- The instruction where it executes and its operands pass their tests is the access. -/
theorem AccessesAt.exec_eq_accessAt (h : AccessesAt s i p kind seg ea v ix k) (hp : s.predHolds p = true)
    (hv : s.hasVReg v = true) (he : (s.gpr ix).toNat = e.val) (hlt : e.val < s.vlMax) :
    exec i s = s.accessAt kind seg ea (k e) := by
  rw [h.exec_eq, State.predicated_true _ _ hp, State.withVRegs_ok _ (by simpa using hv), State.withIndex_ok _ he hlt]

theorem AccessesAt.hasVReg (h : AccessesAt s i p kind seg ea v ix k) (hv : s.HasVRegsOf i) : s.hasVReg v = true :=
  hv v (by simp [h.vregs])

/-- A load that runs and reaches memory (R142, R143). -/
theorem AccessesAt.exec_load (h : AccessesAt s i p .load seg ea v ix (s.loadAt v)) (hrun : s.Runs i) (hv : s.HasVRegsOf i)
    (he : (s.gpr ix).toNat = e.val) (hlt : e.val < s.vlMax) (hr : s.Reaches .load seg ea addr) :
    exec i s = .next { s with pc := s.pcAfter i, v := (s.setElem v e (s.mem.read64 addr.toNat)).v } := by
  obtain ⟨hp, hpc⟩ := hrun
  rw [h.ilen] at hpc
  rw [h.exec_eq_accessAt (h.pred ▸ hp) (h.hasVReg hv) he hlt, State.accessAt_ok _ hr, State.pcAfter, h.ilen]
  exact State.advance_eq hpc

/-- A store that runs and reaches memory outside the program text (R144, R145). -/
theorem AccessesAt.exec_store (h : AccessesAt s i p .store seg ea v ix (s.storeAt v)) (hrun : s.Runs i) (hv : s.HasVRegsOf i)
    (he : (s.gpr ix).toNat = e.val) (hlt : e.val < s.vlMax) (hr : s.Reaches .store seg ea addr)
    (ht : s.overlapsText addr.toNat = false) :
    exec i s = .next { s with pc := s.pcAfter i, mem := s.mem.write64 addr.toNat (s.elem v e) } := by
  obtain ⟨hp, hpc⟩ := hrun
  rw [h.ilen] at hpc
  rw [h.exec_eq_accessAt (h.pred ▸ hp) (h.hasVReg hv) he hlt, State.accessAt_ok _ hr, State.pcAfter, h.ilen]
  exact (if_neg (by simp [ht])).trans (State.advance_eq hpc)

/-- A store that executes and reaches the program text is refused (R38). -/
theorem AccessesAt.exec_store_text (h : AccessesAt s i p .store seg ea v ix (s.storeAt v)) (hp : s.predHolds p = true)
    (hv : s.hasVReg v = true) (hlt : (s.gpr ix).toNat < s.vlMax) (hr : s.Reaches .store seg ea addr)
    (ht : s.overlapsText addr.toNat = true) : exec i s = .refused .storeToProgramText := by
  have h64 := vlMax_le s
  rw [h.exec_eq_accessAt (e := ⟨(s.gpr ix).toNat, by omega⟩) hp hv rfl hlt, State.accessAt_ok _ hr]
  exact if_pos ht

theorem AccessesAt.exec_misaligned (h : AccessesAt s i p kind seg ea v ix k) (hp : s.predHolds p = true)
    (hv : s.hasVReg v = true) (hlt : (s.gpr ix).toNat < s.vlMax) (hm : s.params.misaligned = .refuse)
    (ha : ea.toNat % 8 ≠ 0) : exec i s = .refused .misalignedAccess := by
  have h64 := vlMax_le s
  rw [h.exec_eq_accessAt (e := ⟨(s.gpr ix).toNat, by omega⟩) hp hv rfl hlt, State.accessAt_misaligned hm ha]

end

/-! ## Loads and stores that reach memory -/

/-- Settles O48: both loads write what `MemRead` returns into the element. -/
theorem loadsLoad : Obligations.LoadsLoad := by
  intro s p seg disp sc vt rc rb ra e addr i ea ix hi hrun hv he hlt hr
  have hacc : AccessesAt s i p .load seg ea vt ix (s.loadAt vt) := by
    rcases hi with ⟨rfl, rfl, rfl⟩ | ⟨rfl, rfl, rfl⟩
    · exact accessesAt_vld
    · exact accessesAt_vldx
  refine ⟨_, hacc.exec_load hrun hv he hlt hr, rfl, fun k hk => ?_, fun r k hne => ?_⟩
  · rw [← Mem.read64_byte _ _ hk]
    exact congrArg _ ((State.elem_setElem ..).trans (if_pos ⟨rfl, rfl⟩))
  · exact (State.elem_setElem ..).trans (if_neg hne)

/-- Settles O49: both stores write the element by `MemWrite`. -/
theorem storesStore : Obligations.StoresStore := by
  intro s p seg disp sc vs rc rb ra e addr i ea ix hi hinv hrun hv he hlt hr ht
  have hacc : AccessesAt s i p .store seg ea vs ix (s.storeAt vs) := by
    rcases hi with ⟨rfl, rfl, rfl⟩ | ⟨rfl, rfl, rfl⟩
    · exact accessesAt_vst
    · exact accessesAt_vstx
  have ⟨_, _, hmem⟩ := hr
  exact ⟨_, hacc.exec_store hrun hv he hlt hr ht, rfl, Mem.read_write64 hinv _ (State.memFault_none hmem)⟩

/-! ## Loads and stores that do not -/

/-- The four loads and stores, as the statements of this family list them. -/
theorem exists_accessesAt {s : State} {p : Pred} {seg : BitVec 3} {disp : BitVec 11} {sc : BitVec 2} {v : VReg} {rc rb ra : GReg}
    {i : Instr} {kind : AccessKind} {ea : Word} {ix : GReg}
    (h : (i = .vld p seg disp v rb ra ∧ kind = .load ∧ ea = s.eaDisp disp ra ∧ ix = rb) ∨
      (i = .vldx p seg 0 sc v rc rb ra ∧ kind = .load ∧ ea = s.eaIndexed sc rb ra ∧ ix = rc) ∨
      (i = .vst p seg disp v rb ra ∧ kind = .store ∧ ea = s.eaDisp disp ra ∧ ix = rb) ∨
      (i = .vstx p seg 0 sc v rc rb ra ∧ kind = .store ∧ ea = s.eaIndexed sc rb ra ∧ ix = rc)) :
    ∃ k, AccessesAt s i p kind seg ea v ix k := by
  rcases h with ⟨rfl, rfl, rfl, rfl⟩ | ⟨rfl, rfl, rfl, rfl⟩ | ⟨rfl, rfl, rfl, rfl⟩ | ⟨rfl, rfl, rfl, rfl⟩
  · exact ⟨_, accessesAt_vld⟩
  · exact ⟨_, accessesAt_vldx⟩
  · exact ⟨_, accessesAt_vst⟩
  · exact ⟨_, accessesAt_vstx⟩

/-- Settles O50: the access sequence asks `Translate` first and then `MemFault`. -/
theorem accessExceptions : Obligations.AccessExceptions := by
  intro s p seg disp sc v rc rb ra e i kind ea ix hi hp hv he hlt ha
  obtain ⟨k, hacc⟩ := exists_accessesAt hi
  rw [hacc.exec_eq_accessAt hp (hacc.hasVReg hv) he hlt]
  exact ⟨fun x ht => State.accessAt_translate_error ha ht, fun addr ht =>
    ⟨State.accessAt_memFault ha ht, State.accessAt_memFault ha ht, State.accessAt_memFault ha ht⟩⟩

/-- Settles O51: the tests of form, index, alignment and program text, in the order in which each instruction makes them. -/
theorem accessRefusals : Obligations.AccessRefusals := by
  intro s p seg u disp sc v rc rb ra hp
  refine ⟨fun hu => ⟨exec_vldx_unused hp hu, exec_vstx_unused hp hu⟩,
    accessesAt_vld (s := s).indexRefused, accessesAt_vst (s := s).indexRefused,
    accessesAt_vldx (s := s).indexRefused, accessesAt_vstx (s := s).indexRefused, fun hv hlt hm ha => ⟨?_, ?_⟩,
    fun hv hlt hm ha => ⟨?_, ?_⟩, fun addr ht hv => ⟨fun hlt hr => ?_, fun hlt hr => ?_⟩⟩
  · exact accessesAt_vld.exec_misaligned hp hv hlt hm ha
  · exact accessesAt_vst.exec_misaligned hp hv hlt hm ha
  · exact accessesAt_vldx.exec_misaligned hp hv hlt hm ha
  · exact accessesAt_vstx.exec_misaligned hp hv hlt hm ha
  · exact accessesAt_vst.exec_store_text hp hv hlt hr ht
  · exact accessesAt_vstx.exec_store_text hp hv hlt hr ht

/-- Settles O52: where nothing is given, `Translate` and `MemFault` answer what the two open functions do. -/
theorem accessWithNoPlatformGiven : Obligations.AccessWithNoPlatformGiven := by
  intro s p seg disp sc v rc rb ra e i kind ea ix hi hxlate haccess hp hv he hlt ha
  obtain ⟨k, hacc⟩ := exists_accessesAt hi
  rw [hacc.exec_eq_accessAt hp (hacc.hasVReg hv) he hlt]
  have htranslate := State.translate_open hxlate seg ea kind
  cases hd : Config.translate s seg ea kind <;> rw [hd] at htranslate
  case lmt => exact State.accessAt_translate_error ha htranslate
  case tlb => exact State.accessAt_translate_error ha htranslate
  case plus d =>
    have hfault := State.memFault_open haccess kind (ea + d)
    rcases hf : Config.memFault s kind (ea + d) with _ | x <;> rw [hf] at hfault
    · simp only [hf]
      split
      · next htop => exact ⟨ha, htranslate, hfault.trans (if_pos htop)⟩
      · next htop => exact State.accessAt_memFault ha htranslate (hfault.trans (if_neg htop))
    · simp only [hf]
      cases x with
      | dbe => exact State.accessAt_memFault ha htranslate hfault
      | dbg => exact State.accessAt_memFault ha htranslate hfault

/-! ## A store and then a load -/

/-- Settles O53: `MemRead` at the address returns the word that `MemWrite` has just written there. -/
theorem storeThenLoad : Obligations.StoreThenLoad := by
  intro s t u p q seg seg' un un' disp disp' sc sc' vs vt rc rb ra rc' rb' ra' addr e e' i j ea ea' ix ix' hi hj hinv hp hq hr hr'
    he he' hexec hexec'
  have hstore : AccessesAt s i p .store seg ea vs ix (s.storeAt vs) := by
    rcases hi with ⟨rfl, rfl, rfl⟩ | ⟨rfl, rfl, rfl⟩
    · exact accessesAt_vst
    · obtain rfl : un = 0 := by
        by_contra hu
        rw [exec_vstx_unused hp hu] at hexec
        cases hexec
      exact accessesAt_vstx
  have hload : AccessesAt t j q .load seg' ea' vt ix' (t.loadAt vt) := by
    rcases hj with ⟨rfl, rfl, rfl⟩ | ⟨rfl, rfl, rfl⟩
    · exact accessesAt_vld
    · obtain rfl : un' = 0 := by
        by_contra hu
        rw [exec_vldx_unused hq hu] at hexec'
        cases hexec'
      exact accessesAt_vldx
  obtain ⟨hrun, hv⟩ := runs_of_exec_next hexec (hstore.pred ▸ hp)
  obtain ⟨hrun', hv'⟩ := runs_of_exec_next hexec' (hload.pred ▸ hq)
  have hlt := index_lt_of_exec_next hstore.indexRefused hexec (hstore.pred ▸ hp)
  have hlt' := index_lt_of_exec_next hload.indexRefused hexec' (hload.pred ▸ hq)
  have htext : s.overlapsText addr.toNat = false := by
    by_contra ht
    rw [hstore.exec_store_text hp (hstore.hasVReg hv) hlt hr (by simpa using ht)] at hexec
    cases hexec
  obtain rfl := next_inj hexec (hstore.exec_store hrun hv he (he ▸ hlt) hr htext)
  obtain rfl := next_inj hexec' (hload.exec_load hrun' hv' he' (he' ▸ hlt') hr')
  have ⟨_, _, hmem⟩ := hr
  exact (State.elem_setElem ..).trans ((if_pos ⟨rfl, rfl⟩).trans (Mem.read64_write64 hinv _ (State.memFault_none hmem)))

end Sys2Proof.Machine
end

section
/-! PROOFS. The family of 43_vector_mac_5Ah.md: VMAC in its two forms, and what it is refused for (R161 to R164). -/

namespace Sys2Proof.Machine

/-! ## The form that `VMAC_O` gives -/

section
variable {p : Pred} {o : BitVec 3} {sn : BitVec 4} {t : BitVec 3} {vt va vb vc : VReg} {ra : GReg} {s : State}

/-- VMAC where it executes in the element form (R163). -/
theorem exec_vmac_element (ho : s.params.vmacO[o.toNat]'o.isLt = .element) (hp : s.predHolds p = true) :
    exec (.vmac p o sn t vt va vb vc ra) s = withType t fun ty => s.elementForm 7 [va, vb, vc] vt ra fun e =>
      opMac sn ty (s.elem va e) (s.elem vb e) (s.elem vc e) := by
  refine (State.predicated_true _ _ hp).trans ?_
  rw [ho]

/-- VMAC where it executes in the length form (R164). -/
theorem exec_vmac_length (ho : s.params.vmacO[o.toNat]'o.isLt = .length) (hp : s.predHolds p = true) :
    exec (.vmac p o sn t vt va vb vc ra) s = withType t fun ty => s.lengthForm 7 [va, vb, vc] vt ra fun e =>
      opMac sn ty (s.elem va e) (s.elem vb e) (s.elem vc e) := by
  refine (State.predicated_true _ _ hp).trans ?_
  rw [ho]

/-- VMAC where it executes in a form that is reserved (U13). -/
theorem exec_vmac_reserved (ho : s.params.vmacO[o.toNat]'o.isLt = .reserved) (hp : s.predHolds p = true) :
    exec (.vmac p o sn t vt va vb vc ra) s = .refused (.vmacFormReserved o) := by
  refine (State.predicated_true _ _ hp).trans ?_
  rw [ho]

/-- In both forms VMAC tests its type before anything else. -/
theorem exec_vmac_typed (ho : s.params.vmacO[o.toNat]'o.isLt ≠ .reserved) (hp : s.predHolds p = true) :
    ∃ body, exec (.vmac p o sn t vt va vb vc ra) s = withType t body := by
  cases h : s.params.vmacO[o.toNat]'o.isLt with
  | reserved => exact absurd h ho
  | element => exact ⟨_, exec_vmac_element h hp⟩
  | length => exact ⟨_, exec_vmac_length h hp⟩

end

/-! ## The integer multiply-accumulate -/

theorem negIf_eq_ofInt (b : Bool) (a : Word) : negIf b a = BitVec.ofInt 64 (if b then -a.toInt else a.toInt) := by
  cases b <;> simp [negIf, BitVec.ofInt_neg]

theorem negIf_ofInt (b : Bool) (n : Int) : negIf b (BitVec.ofInt 64 n) = BitVec.ofInt 64 ((if b then -1 else 1) * n) := by
  cases b <;> simp [negIf, BitVec.ofInt_neg]

/-- The wrapped result is that of the signed numbers, with each inversion a change of sign (R161, D13, D27). -/
theorem opMac_integer (sn : BitVec 4) (a b c : Word) :
    opMac sn .integer a b c = BitVec.ofInt 64
      ((if sn.getLsbD 3 then -1 else 1) *
        ((if sn.getLsbD 0 then -a.toInt else a.toInt) * (if sn.getLsbD 1 then -b.toInt else b.toInt) +
          (if sn.getLsbD 2 then -c.toInt else c.toInt))) := by
  rw [opMac, negIf_eq_ofInt _ a, negIf_eq_ofInt _ b, negIf_eq_ofInt _ c, ← BitVec.ofInt_mul, ← BitVec.ofInt_add, negIf_ofInt]

/-- Settles O54: the element form of `opMac`, in the type that `T3` names. -/
theorem vmacElementForm : Obligations.VmacElementForm := by
  intro p o sn vt va vb vc ra s e t ho ht ⟨hp, hpc⟩ hv he hlt
  obtain ⟨ty, hty⟩ := operandType_listed ht
  have hexec : exec (.vmac p o sn t vt va vb vc ra) s = .next { s with
      pc := s.pcAfter (.vmac p o sn t vt va vb vc ra)
      v := (s.setElem vt e (opMac sn ty (s.elem va e) (s.elem vb e) (s.elem vc e))).v } :=
    (exec_vmac_element ho hp).trans ((withType_ok _ hty).trans (State.elementForm_ok hv he hlt hpc))
  have helem : (s.setElem vt e (opMac sn ty (s.elem va e) (s.elem vb e) (s.elem vc e))).elem vt e =
      opMac sn ty (s.elem va e) (s.elem vb e) (s.elem vc e) := (State.elem_setElem ..).trans (if_pos ⟨rfl, rfl⟩)
  have hof {ty'} (h : operandType t = .ok ty') : ty = ty' := Except.ok.inj (hty.symm.trans h)
  refine ⟨_, hexec, rfl, fun r k hne => (State.elem_setElem ..).trans (if_neg hne), ?_, ?_, ?_⟩
  · rintro rfl; obtain rfl := hof rfl; exact helem.trans (opMac_integer ..)
  · rintro rfl; obtain rfl := hof rfl; exact helem
  · rintro rfl; obtain rfl := hof rfl; exact helem

/-- Settles O55: the length form of `opMac`, in the type that `T3` names. -/
theorem vmacLengthForm : Obligations.VmacLengthForm := by
  intro p o sn vt va vb vc ra s t ot ho hty ⟨hp, hpc⟩ hv hlen
  exact ⟨_, (exec_vmac_length ho hp).trans ((withType_ok _ hty).trans (State.lengthForm_ok hv hlen hpc)), rfl,
    fun r k => State.elem_setElems ..⟩

/-- Settles O56: the form is tested first, then the type, then the index or the length. -/
theorem vmacRefusals : Obligations.VmacRefusals := by
  intro p o sn t vt va vb vc ra s hp
  refine ⟨fun ho => exec_vmac_reserved ho hp, fun ho => ?_⟩
  obtain ⟨body, hbody⟩ := exec_vmac_typed (sn := sn) (t := t) (vt := vt) (va := va) (vb := vb) (vc := vc) (ra := ra) ho hp
  refine ⟨fun ht => ?_, fun ht => ?_, fun ht hv => ?_⟩
  · subst ht
    exact hbody.trans (withType_error _ operandType_quad)
  · exact hbody.trans (withType_error _ (operandType_reserved ht))
  · obtain ⟨ty, hty⟩ := operandType_listed ht
    refine ⟨fun ho hix => ?_, fun ho hlen => ?_⟩
    · exact (exec_vmac_element ho hp).trans
        ((withType_ok _ hty).trans ((State.withVRegs_ok _ hv).trans (State.withIndex_out _ hix)))
    · exact (exec_vmac_length ho hp).trans
        ((withType_ok _ hty).trans ((State.withVRegs_ok _ hv).trans (State.withLength_out _ hlen)))

end Sys2Proof.Machine
end
